-- ==== Sys2Proof/Word.lean ====
section
/-! DEFINITION. The word types of the instruction stream: a 32-bit instruction word and the 5-bit register fields (R70, R80). -/

namespace Sys2Proof

/-- An instruction word: every vector instruction is one 32-bit word (R70). -/
abbrev Word := BitVec 32

/-- A register field of an instruction word: an unsigned 5-bit number (R80). -/
abbrev RegNum := BitVec 5

/-- A byte of memory (R15). -/
abbrev Byte := BitVec 8

end Sys2Proof
end

