-- ==== Sys2Proof/Config.lean ====
section
/-! DEFINITION. What is fixed for a run: the implementation parameters of `00_scope.md` section 3, the open parameters gathered in
`92_eei_decisions.md` as plain data, and the model's free values (opaque constants without a body). -/

namespace Sys2Proof.Config

/-- The implementation parameters (R6, R7, R8, R13). VLEN, ELEN and SLEN are powers of two of at least 8, with ELEN and SLEN at
most VLEN (decision D2); they are held by their exponents over 8, so no other value can be written down. XLEN and FLEN are
unconstrained (D5). DESIGN CHOICE (the source leaves them open, the spec's D2 bounds them): logs 1 and 2. -/
structure Geometry where
  vlenLog : Nat
  elenLog : Nat
  slenLog : Nat
  xlen : Nat
  flen : Nat
  elen_le_vlen : elenLog ≤ vlenLog
  slen_le_vlen : slenLog ≤ vlenLog
  deriving DecidableEq, Repr

/-- VLEN: the number of bits of one vector register (R6). -/
abbrev Geometry.vlen (g : Geometry) : Nat := 8 * 2 ^ g.vlenLog

/-- ELEN: the largest element width (R7). -/
abbrev Geometry.elen (g : Geometry) : Nat := 8 * 2 ^ g.elenLog

/-- SLEN: the striping distance in bits (R8). -/
abbrev Geometry.slen (g : Geometry) : Nat := 8 * 2 ^ g.slenLog

/-- The four major opcodes of the vector instructions (R71). -/
inductive MajorOpcode
  | loadFp | storeFp | amo | opV
  deriving DecidableEq, Repr

/-- The open parameter `IsVectorWidth` (R84, D24) as plain data: for each shared major opcode, bit `w` says whether the `width`
value `w` marks a vector instruction. DESIGN CHOICE of representation: log 6. -/
structure VectorWidths where
  loadFp : BitVec 8
  storeFp : BitVec 8
  amo : BitVec 8
  deriving DecidableEq, Repr

/-- The seven operand categories of OP-V arithmetic (R75). -/
inductive Category
  | opivv | opfvv | opmvv | opivi | opivx | opfvf | opmvx
  deriving DecidableEq, Repr

/-- An instruction slot of OP-V arithmetic: a category and a `funct6` (R76). -/
structure Slot where
  category : Category
  funct6 : BitVec 6
  deriving DecidableEq, Repr

/-- Where an instruction puts its result (bits 11:7): a vector register group of width multiplier `2 ^ kLog`, a mask register (R200), a
scalar in element 0 of a vector register (R161, R162; log 33), or a scalar `x` or `f` register (R161, R213). -/
inductive Dest
  | vgroup (kLog : Nat)
  | mask
  | scalar0
  | scalar
  deriving DecidableEq, Repr

/-- What bits 24:20 name (R200; the scalar in element 0 of a vector register is R162). -/
inductive Src2
  | vgroup (kLog : Nat)
  | mask
  | scalar0
  | none
  deriving DecidableEq, Repr

/-- What bits 19:15 name (R200, R75; the scalar in element 0 of a vector register is R162). -/
inductive Src1
  | vgroup (kLog : Nat)
  | mask
  | scalar0
  | simm5
  | xreg
  | freg
  | none
  deriving DecidableEq, Repr

/-- The element function `F` of a descriptor (R200), which is not in the source: either it is left open (`notInSource`, the free
value `elementFn` below), or it is one of the example functions of `95_test_vectors.md` section 3, which are no instructions of
the hardware. DESIGN CHOICE of representation: log 4. -/
inductive ElemFn
  | notInSource
  /-- `(a2 + a1) mod 2^SEW` (program P1). -/
  | exampleSum
  /-- `(x + a1) mod 2^SEW` (program P3). -/
  | exampleIndexPlus
  /-- `a2` (programs P3, P4). -/
  | exampleCopy
  /-- `1 if a2 < a1 as unsigned else 0` (program P4). -/
  | exampleLessUnsigned
  deriving DecidableEq, Repr

/-- An instruction descriptor (R200). -/
structure Descriptor where
  maskable : Bool
  zeroesTail : Bool
  dest : Dest
  src2 : Src2
  src1 : Src1
  readsDest : Bool
  fn : ElemFn
  deriving DecidableEq, Repr

/-- The open parameter `VsetEffect` (R201, D21): the uninterpreted effect, or the instantiation offered from the 0.7.x drafts
(`93_implementation_defined.md` G5, general knowledge). Log 5. -/
inductive VsetChoice
  | open_
  | draft07
  deriving DecidableEq, Repr

/-- The parameters of the model other than the geometry: `zfinx` (R26, D23), `IsVectorWidth` (R84, D24), `Desc` (R200, D1),
`VsetEffect` (R201, D21) and `CauseIllegalInstruction` (R231, D15). -/
structure Params where
  zfinx : Bool
  vectorWidths : VectorWidths
  desc : List (Slot × Descriptor)
  vsetEffect : VsetChoice
  causeIllegalInstruction : Nat
  deriving DecidableEq, Repr

/-- The vector register grouping factor LMUL, one of 1, 2, 4, 8 (R10). -/
inductive Lmul
  | m1 | m2 | m4 | m8
  deriving DecidableEq, Repr, Inhabited

/-- What the open `VsetEffect` answers before it is fitted to the legal range (R201): an exponent for SEW, an LMUL, a vector length
and the value for `x[rd]`. -/
structure VsetRaw where
  sewLog : Nat
  lmul : Lmul
  vl : Nat
  rdValue : Nat
  deriving DecidableEq, Repr, Inhabited

/-- FREE VALUE. The element function `F` of an instruction slot (R200: "NOT IN SOURCE"), uninterpreted: the slot, SEW, the width of
the result, then the arguments `x`, `a2`, `a1`, `d_old` (an absent operand is `none`). Log 4. -/
opaque elementFn (slot : Slot) (sew width x : Nat) (a2 a1 dOld : Option Nat) : Nat

/-- What an instruction with a scalar result reads for one body element: whether the element is enabled, and its operands (R166, R200
step 4). -/
structure BodyElement where
  enabled : Bool
  a2 : Option Nat
  a1 : Option Nat
  deriving DecidableEq, Repr

/-- FREE VALUE. The scalar result of an instruction that writes element 0 of a vector register (R161), which the spec does not state,
uninterpreted: the slot, SEW, `vstart`, what is read for the elements from `vstart` up to `vl`, and the old element 0. Log 33. -/
opaque scalarFn (slot : Slot) (sew vstart : Nat) (body : List BodyElement) (old : Nat) : Nat

/-- FREE VALUE. The bits of an operand element that no register holds: where an element is wider than a vector register, `ElemLoc` (R114,
N53) puts its bits from VLEN up beyond the end of the register, and the spec does not say what is read there. Uninterpreted: the vector
registers, `pc`, and the operand's register number, its element width and the element index. Log 24. -/
opaque absentBits {σ : Type} (vectorRegisters : σ) (pc base width x : Nat) : Nat

/-- FREE VALUE. The effect of `vsetvli` and `vsetvl` (R201, D21: an open parameter), uninterpreted: a function of the whole state,
of the field `rs1` that names the AVL source, and of the new setting. Log 5. -/
opaque vsetRaw {σ : Type} (state : σ) (avlSource newSetting : Nat) : VsetRaw

/-- The geometry of the reset state. DESIGN CHOICE (R6 to R8, R13 fix no value): log 1. -/
def initialGeometry : Geometry := ⟨5, 3, 4, 64, 64, by decide, by decide⟩

/-- The other parameters of the reset state: `Desc` empty (R200), the rest chosen. DESIGN CHOICE: logs 3, 5, 6, 11; the cause code 2 is
PRESUMED (G8): log 7. -/
def initialParams : Params where
  zfinx := false
  vectorWidths := ⟨0xFF#8, 0xFF#8, 0xFF#8⟩
  desc := []
  vsetEffect := .open_
  causeIllegalInstruction := 2

end Sys2Proof.Config
end

