-- ==== Sys2Proof/Syntax.lean ====
section
/-! DEFINITION. The instructions: one constructor per row of `spec/opcode_table.json`, every field of the format kept. -/

namespace Sys2Proof

open Config

/-- The instructions. A constructor's fields are the fields of its format figure (R72 to R78), unexplained function fields kept as
raw bits (R83). `vm = true` is the encoding `vm = 1`, unmasked (R79). A field drawn `vd/rd` or `vs3/vd` is one field (R74, R75). -/
inductive Instr
  /-- `vsetvli rd, rs1, zimm[10:0]` (R77, R201). -/
  | vsetvli (zimm : BitVec 11) (rs1 rd : RegNum)
  /-- `vsetvl rd, rs1, rs2` (R78, R202). -/
  | vsetvl (rs2 rs1 rd : RegNum)
  /-- OP-V, bits 14:12 = 000 (R75, R212). -/
  | opivv (funct6 : BitVec 6) (vm : Bool) (vs2 vs1 vd : RegNum)
  /-- OP-V, bits 14:12 = 001 (R75, R213). -/
  | opfvv (funct6 : BitVec 6) (vm : Bool) (vs2 vs1 vdRd : RegNum)
  /-- OP-V, bits 14:12 = 010 (R75, R214). -/
  | opmvv (funct6 : BitVec 6) (vm : Bool) (vs2 vs1 vdRd : RegNum)
  /-- OP-V, bits 14:12 = 011 (R75, R215). -/
  | opivi (funct6 : BitVec 6) (vm : Bool) (vs2 : RegNum) (simm5 : BitVec 5) (vd : RegNum)
  /-- OP-V, bits 14:12 = 100 (R75, R216). -/
  | opivx (funct6 : BitVec 6) (vm : Bool) (vs2 rs1 vd : RegNum)
  /-- OP-V, bits 14:12 = 101 (R75, R217). -/
  | opfvf (funct6 : BitVec 6) (vm : Bool) (vs2 rs1 vd : RegNum)
  /-- OP-V, bits 14:12 = 110 (R75, R218). -/
  | opmvx (funct6 : BitVec 6) (vm : Bool) (vs2 rs1 vdRd : RegNum)
  /-- The vector loads `VL*`, `VLS*`, `VLX*` (R72, R203 to R206). -/
  | vload (nf mop : BitVec 3) (vm : Bool) (f24 rs1 : RegNum) (width : BitVec 3) (vd : RegNum)
  /-- The vector stores `VS*`, `VSS*`, `VSX*` (R73, R207 to R210). -/
  | vstore (nf mop : BitVec 3) (vm : Bool) (f24 rs1 : RegNum) (width : BitVec 3) (vs3 : RegNum)
  /-- The vector AMOs `VAMO*` (R74, R211). -/
  | vamo (amoop : BitVec 5) (wd vm : Bool) (vs2 rs1 : RegNum) (width : BitVec 3) (vs3Vd : RegNum)
  deriving DecidableEq, Repr

/-- The OP-V arithmetic instruction of a category, its bits 19:15 and 11:7 as the raw fields `f19` and `f11` (R89). -/
def Instr.arith (c : Category) (funct6 : BitVec 6) (vm : Bool) (vs2 f19 f11 : RegNum) : Instr :=
  match c with
  | .opivv => .opivv funct6 vm vs2 f19 f11
  | .opfvv => .opfvv funct6 vm vs2 f19 f11
  | .opmvv => .opmvv funct6 vm vs2 f19 f11
  | .opivi => .opivi funct6 vm vs2 f19 f11
  | .opivx => .opivx funct6 vm vs2 f19 f11
  | .opfvf => .opfvf funct6 vm vs2 f19 f11
  | .opmvx => .opmvx funct6 vm vs2 f19 f11

/-- The slot of an OP-V arithmetic instruction (R76); no other instruction has one. -/
def Instr.slot : Instr → Option Slot
  | .opivv f .. => some ⟨.opivv, f⟩
  | .opfvv f .. => some ⟨.opfvv, f⟩
  | .opmvv f .. => some ⟨.opmvv, f⟩
  | .opivi f .. => some ⟨.opivi, f⟩
  | .opivx f .. => some ⟨.opivx, f⟩
  | .opfvf f .. => some ⟨.opfvf, f⟩
  | .opmvx f .. => some ⟨.opmvx, f⟩
  | .vsetvli .. | .vsetvl .. | .vload .. | .vstore .. | .vamo .. => none

/-- The readings of bits 24:20 of a vector load or store (R72, R73, R83): which one holds is selected by `mop` in a way the source
does not give, so the decoder keeps the raw field and all three. -/
inductive F24Reading
  /-- The function field `lumop` or `sumop` of the unit-stride sub-form (R204, R208). -/
  | umop (field : BitVec 5)
  /-- The `x` register of the strided sub-form (R205, R209). -/
  | rs2 (reg : RegNum)
  /-- The vector register group of the indexed sub-form (R206, R210). -/
  | vs2 (reg : RegNum)
  deriving DecidableEq, Repr

/-- The three readings of the raw field (R83). -/
def f24Readings (f24 : BitVec 5) : List F24Reading := [.umop f24, .rs2 f24, .vs2 f24]

/-- The trailing mask operand of the assembler syntax: `v0.t` for a masked instruction, nothing for an unmasked one (R87, R169). -/
def maskOperand (vm : Bool) : Option String := if vm then none else some "v0.t"

end Sys2Proof
end

