-- ==== Sys2Proof/WellFormed.lean ====
section
/-! DEFINITION. Well-formed instructions. Field widths are in the types; what is left to check is that a load, store or AMO has a
`width` value that marks a vector instruction (R84). -/

namespace Sys2Proof

open Config

/-- The predicate `IsVectorWidth` (R84). Only the three opcodes shared with scalar instructions have vector widths. -/
def Config.VectorWidths.isVectorWidth (p : VectorWidths) (op : MajorOpcode) (width : BitVec 3) : Bool :=
  match op with
  | .loadFp => p.loadFp.getLsbD width.toNat
  | .storeFp => p.storeFp.getLsbD width.toNat
  | .amo => p.amo.getLsbD width.toNat
  | .opV => false

/-- An instruction is well formed under the parameter `IsVectorWidth` when a word of it decodes as it (R84, R89). -/
def Instr.wellFormed (p : VectorWidths) : Instr → Bool
  | .vload _ _ _ _ _ width _ => p.isVectorWidth .loadFp width
  | .vstore _ _ _ _ _ width _ => p.isVectorWidth .storeFp width
  | .vamo _ _ _ _ _ width _ => p.isVectorWidth .amo width
  | .vsetvli .. | .vsetvl .. | .opivv .. | .opfvv .. | .opmvv .. | .opivi .. | .opivx .. | .opfvf .. | .opmvx .. => true

end Sys2Proof
end

