-- ==== Sys2Proof/Decode.lean ====
section
/-! DEFINITION. The decoder of R89, total on every 32-bit word, then the encoder written from the format figures R72 to R78, and the
opcode table as rows of mask and match. -/

namespace Sys2Proof

open Config

/-- What a word decodes to (R89). -/
inductive Decoded
  | instr (i : Instr)
  /-- The OP-V configuration word that matches no row: it raises the illegal instruction exception (R85(a), D13). -/
  | illegal
  /-- A word outside the formats of this hardware (R89). -/
  | notInThisSpec
  deriving DecidableEq, Repr

/-- Bits 6:0 of each major opcode (R71). -/
def Config.MajorOpcode.bits : MajorOpcode → BitVec 7
  | .loadFp => 0b0000111#7
  | .storeFp => 0b0100111#7
  | .amo => 0b0101111#7
  | .opV => 0b1010111#7

/-- Bits 14:12 of each category (R75). -/
def Config.Category.bits : Category → BitVec 3
  | .opivv => 0b000#3
  | .opfvv => 0b001#3
  | .opmvv => 0b010#3
  | .opivi => 0b011#3
  | .opivx => 0b100#3
  | .opfvf => 0b101#3
  | .opmvx => 0b110#3

/-- The category that bits 14:12 select; `111` is configuration (R75). -/
def categoryOf (b : BitVec 3) : Option Category :=
  if b = 0b000#3 then some .opivv
  else if b = 0b001#3 then some .opfvv
  else if b = 0b010#3 then some .opmvv
  else if b = 0b011#3 then some .opivi
  else if b = 0b100#3 then some .opivx
  else if b = 0b101#3 then some .opfvf
  else if b = 0b110#3 then some .opmvx
  else none

/-- Decoding under the major opcode OP-V (R89, R75, R77, R78, R85(a)). -/
def decodeOpV (w : Word) : Decoded :=
  match categoryOf (w.extractLsb' 12 3) with
  | some c =>
    .instr (.arith c (w.extractLsb' 26 6) (w.getLsbD 25) (w.extractLsb' 20 5) (w.extractLsb' 15 5) (w.extractLsb' 7 5))
  | none =>
    if w.getLsbD 31 = false then .instr (.vsetvli (w.extractLsb' 20 11) (w.extractLsb' 15 5) (w.extractLsb' 7 5))
    else if w.extractLsb' 25 6 = 0b000000#6 then
      .instr (.vsetvl (w.extractLsb' 20 5) (w.extractLsb' 15 5) (w.extractLsb' 7 5))
    else .illegal

/-- The decode algorithm (R89), under the parameter `IsVectorWidth` (R84). -/
def decode (p : VectorWidths) (w : Word) : Decoded :=
  let op := w.extractLsb' 0 7
  let width := w.extractLsb' 12 3
  if op = MajorOpcode.opV.bits then decodeOpV w
  else if op = MajorOpcode.loadFp.bits ∧ p.isVectorWidth .loadFp width = true then
    .instr (.vload (w.extractLsb' 29 3) (w.extractLsb' 26 3) (w.getLsbD 25) (w.extractLsb' 20 5) (w.extractLsb' 15 5) width
      (w.extractLsb' 7 5))
  else if op = MajorOpcode.storeFp.bits ∧ p.isVectorWidth .storeFp width = true then
    .instr (.vstore (w.extractLsb' 29 3) (w.extractLsb' 26 3) (w.getLsbD 25) (w.extractLsb' 20 5) (w.extractLsb' 15 5) width
      (w.extractLsb' 7 5))
  else if op = MajorOpcode.amo.bits ∧ p.isVectorWidth .amo width = true then
    .instr (.vamo (w.extractLsb' 27 5) (w.getLsbD 26) (w.getLsbD 25) (w.extractLsb' 20 5) (w.extractLsb' 15 5) width
      (w.extractLsb' 7 5))
  else .notInThisSpec

/-- The instruction the decoder reads from a word of the opcode table (bit 0 the least significant), under the parameters of the reset
state: every row is one 32-bit word (R70). -/
def decodeTableWord (nbits w : Nat) : Option Instr :=
  match decode initialParams.vectorWidths (BitVec.ofNat 32 (w % 2 ^ nbits)) with
  | .instr i => some i
  | .illegal | .notInThisSpec => none

/-- The layout all formats share: bits 31:25, 24:20, 19:15, 14:12, 11:7, 6:0 (the figures of source section 5, `95_test_vectors.md` 1.12). -/
def layout (f31 : BitVec 7) (f24 f19 : BitVec 5) (f14 : BitVec 3) (f11 : BitVec 5) (op : BitVec 7) : Word :=
  f31 ++ f24 ++ f19 ++ f14 ++ f11 ++ op

/-- The word of an OP-V arithmetic instruction (R75). -/
def encodeArith (c : Category) (funct6 : BitVec 6) (vm : Bool) (vs2 f19 f11 : RegNum) : Word :=
  layout (funct6 ++ BitVec.ofBool vm) vs2 f19 c.bits f11 MajorOpcode.opV.bits

/-- The word of an instruction (R72 to R78). -/
def encode : Instr → Word
  | .vsetvli zimm rs1 rd =>
    (0b0#1 ++ zimm ++ rs1 ++ 0b111#3 ++ rd ++ MajorOpcode.opV.bits : BitVec (1 + 11 + 5 + 3 + 5 + 7))
  | .vsetvl rs2 rs1 rd => layout (0b1#1 ++ 0b000000#6) rs2 rs1 0b111#3 rd MajorOpcode.opV.bits
  | .opivv funct6 vm vs2 vs1 vd => encodeArith .opivv funct6 vm vs2 vs1 vd
  | .opfvv funct6 vm vs2 vs1 vdRd => encodeArith .opfvv funct6 vm vs2 vs1 vdRd
  | .opmvv funct6 vm vs2 vs1 vdRd => encodeArith .opmvv funct6 vm vs2 vs1 vdRd
  | .opivi funct6 vm vs2 simm5 vd => encodeArith .opivi funct6 vm vs2 simm5 vd
  | .opivx funct6 vm vs2 rs1 vd => encodeArith .opivx funct6 vm vs2 rs1 vd
  | .opfvf funct6 vm vs2 rs1 vd => encodeArith .opfvf funct6 vm vs2 rs1 vd
  | .opmvx funct6 vm vs2 rs1 vdRd => encodeArith .opmvx funct6 vm vs2 rs1 vdRd
  | .vload nf mop vm f24 rs1 width vd => layout (nf ++ mop ++ BitVec.ofBool vm) f24 rs1 width vd MajorOpcode.loadFp.bits
  | .vstore nf mop vm f24 rs1 width vs3 => layout (nf ++ mop ++ BitVec.ofBool vm) f24 rs1 width vs3 MajorOpcode.storeFp.bits
  | .vamo amoop wd vm vs2 rs1 width vs3Vd =>
    layout (amoop ++ BitVec.ofBool wd ++ BitVec.ofBool vm) vs2 rs1 width vs3Vd MajorOpcode.amo.bits

/-- The mask and match words of an instruction's row of `opcode_table.json`: a word is of the row when `word &&& mask = match`. -/
def Instr.row : Instr → Word × Word
  | .vsetvli .. => (0x8000707F#32, 0x00007057#32)
  | .vsetvl .. => (0xFE00707F#32, 0x80007057#32)
  | .opivv .. => (0x0000707F#32, 0x00000057#32)
  | .opfvv .. => (0x0000707F#32, 0x00001057#32)
  | .opmvv .. => (0x0000707F#32, 0x00002057#32)
  | .opivi .. => (0x0000707F#32, 0x00003057#32)
  | .opivx .. => (0x0000707F#32, 0x00004057#32)
  | .opfvf .. => (0x0000707F#32, 0x00005057#32)
  | .opmvx .. => (0x0000707F#32, 0x00006057#32)
  | .vload .. => (0x0000007F#32, 0x00000007#32)
  | .vstore .. => (0x0000007F#32, 0x00000027#32)
  | .vamo .. => (0x0000007F#32, 0x0000002F#32)

end Sys2Proof
end

