-- ==== Sys2Proof/Machine/State.lean ====
section
/-! DEFINITION. The state of the machine as plain data, its state after reset, and the reasons a step can stop. -/

namespace Sys2Proof.Machine

open Config

/-- `vtype` as the abstract pair (SEW, LMUL), always legal (R28, R9, R10, decision D6): SEW is `8 * 2 ^ sewLog`, at most ELEN. Log 23. -/
structure VType (g : Geometry) where
  sewLog : Fin (g.elenLog + 1)
  lmul : Lmul
  deriving DecidableEq, Repr

/-- The vector register file: 32 registers of VLEN bits (R20, R21). -/
abbrev VRegs (g : Geometry) := Vector (BitVec g.vlen) 32

/-- The registers. `x` holds `x1` to `x31` (entry `i` is `x(i+1)`); `x0` is no storage (R24, D4). -/
structure Arch (g : Geometry) where
  /-- `x1` .. `x31` (R24). -/
  x : Vector (BitVec g.xlen) 31
  /-- `f0` .. `f31` (R25); with `zfinx` nothing reads them (R26). -/
  f : Vector (BitVec g.flen) 32
  /-- `v0` .. `v31` (R20). -/
  v : VRegs g
  /-- The current vector length (R27). -/
  vl : Nat
  /-- The current SEW and LMUL (R28). -/
  vtype : VType g
  /-- The index of the first element to operate on (R29). -/
  vstart : Nat
  /-- The address of the executing instruction (R31). -/
  pc : BitVec g.xlen
  deriving DecidableEq, Repr

/-- Memory: the listed bytes by address, addresses strictly rising (R32). An unlisted address has no value. Log 13. -/
abbrev Memory := List Host.Cell

/-- The whole state: the parameters of the model, fixed for a run (R35), the registers, memory, and the run (R244): its program text, a
parameter fixed for the run (R35, R63), and the place reached in it. -/
structure State where
  geom : Geometry
  params : Params
  arch : Arch geom
  mem : Memory
  /-- The program text: the list of words of the run (R244). -/
  program : List Word
  /-- How many words of the list have been executed. The model's own: R244 executes the words "in order". Log 14. -/
  executed : Nat
  deriving DecidableEq, Repr

/-- Why the machine stops. -/
inductive Fault
  /-- The illegal instruction exception: raised by `raiseIllegal` for a failed operand check (R163, R164, R167, R170) and by `step` for
  the unmatched OP-V configuration word (R85(a)). The terminal outcome of R237, carrying the instruction word, the `pc` and the cause
  code (R231). Safe: no register has changed and nothing follows. Log 8. -/
  | illegalInstruction (inst : Word) (pc cause : Nat)
  /-- The end of a run: raised by `step` when the list of words is exhausted; the state reached is final (R244). It is no exception of
  the hardware. Safe: nothing follows. Log 13. -/
  | endOfProgram (pc : Nat)
  deriving DecidableEq, Repr

/-- Why the model gives an instruction no meaning: the spec's `Refuse(reason)` (R17), a verdict of the model. All are safe. -/
inductive Refusal
  /-- An instruction that exec rejects by name (no arm does). Safe. -/
  | notModelled (mnemonic : String)
  /-- No descriptor for the instruction slot: the OP-V arithmetic meanings (R200 step 1). Safe. Log 32. -/
  | semanticsNotInSource
  /-- The vector loads, stores and AMOs (R50, R203, R207, R211). Safe. Log 26. -/
  | memorySemanticsNotInSource
  /-- `vstart > vl` or `vl > VLMAX`: the OP-V arithmetic meanings (R189, R200 step 1). Safe. Log 16. -/
  | elementClassesOverlap
  /-- `vm = 0` on an instruction that is not maskable: the OP-V arithmetic meanings (R85(b), R200 step 3). Safe. Log 18. -/
  | vmOnUnmaskable
  /-- A scalar register destination, to which the template does not apply: the OP-V arithmetic meanings (R213, R214, R218). Safe. Log 25. -/
  | scalarDestination
  /-- A setting that the 0.7.x `VsetEffect` cannot represent: `vsetvli`, `vsetvl` under `draft07` (G5). Safe. Log 5. -/
  | settingNotRepresentable
  /-- A word outside the formats of this hardware: `step` (R89 `NotInThisSpec`). Safe. Log 27. -/
  | notInThisSpec
  deriving DecidableEq, Repr

/-- The registers right after reset. The spec gives no reset value (R260); every value here is a DESIGN CHOICE, unsafe to rest on: log 9. -/
def Arch.reset (g : Geometry) : Arch g where
  x := Vector.replicate 31 0
  f := Vector.replicate 32 0
  v := Vector.replicate 32 0
  vl := 0
  vtype := ⟨0, .m1⟩
  vstart := 0
  pc := 0

/-- The machine right after reset: the parameters of `Config`, memory with nothing listed, no program placed (R260; logs 1, 9, 13, 14). -/
def State.reset : State where
  geom := initialGeometry
  params := initialParams
  arch := Arch.reset initialGeometry
  mem := []
  program := []
  executed := 0

end Sys2Proof.Machine
end

