-- ==== Sys2Proof/Machine/Elements.lean ====
section
/-! DEFINITION. The mapping of elements to vector registers as pure functions (`40_element_mapping.md`), VLMAX and MLEN, and the classes
of element indices (`43_element_classes.md`). -/

namespace Sys2Proof

/-- LMUL as a number (R10). -/
def Config.Lmul.toNat : Config.Lmul → Nat
  | .m1 => 1
  | .m2 => 2
  | .m4 => 4
  | .m8 => 8

namespace Machine

open Config

/-- SEW, the current element width in bits (R9). -/
def VType.sew {g : Geometry} (t : VType g) : Nat := 8 * 2 ^ t.sewLog.val

/-- VLMAX = LMUL * VLEN / SEW (R11). -/
def VType.vlmax {g : Geometry} (t : VType g) : Nat := t.lmul.toNat * g.vlen / t.sew

/-- MLEN = SEW / LMUL, the width of a mask element (R12, R142). -/
def VType.mlen {g : Geometry} (t : VType g) : Nat := t.sew / t.lmul.toNat

/-- The element width of an operand of width multiplier `2 ^ kLog` (R164). -/
def VType.widened {g : Geometry} (t : VType g) (kLog : Nat) : Nat := 2 ^ kLog * t.sew

/-- The group size of an operand of width multiplier `2 ^ kLog` (R164). -/
def VType.groupSize {g : Geometry} (t : VType g) (kLog : Nat) : Nat := 2 ^ kLog * t.lmul.toNat

/-- The number of elements packed contiguously in one register before moving on, `E` of R114. -/
def runLength (slen sew : Nat) : Nat := max 1 (slen / sew)

/-- `ElemLoc` (R114): the register offset inside the group and the bit offset inside that register of element `i`. -/
def elemLoc (slen sew lmul i : Nat) : Nat × Nat :=
  let e := runLength slen sew
  let w := max slen sew
  let c := i / e
  let p := i % e
  (c % lmul, c / lmul * w + p * sew)

/-- `ElemAt` (R117): the index of the element held at bit offset `k * SEW` of register `r` of the group. -/
def elemAt (slen sew lmul r k : Nat) : Nat :=
  let e := runLength slen sew
  (k / e * lmul + r) * e + k % e

/-- The LMUL to use for an element width at a given ratio SEW/LMUL, the operating points of R125; no entry where no legal LMUL gives
the ratio. -/
def operatingLmul (sew ratio : Nat) : Option Lmul :=
  if sew = ratio then some .m1
  else if sew = 2 * ratio then some .m2
  else if sew = 4 * ratio then some .m4
  else if sew = 8 * ratio then some .m8
  else none

/-- The classes of element indices during one instruction (R180 to R183). -/
inductive ElementClass
  | prestart | active | inactive | tail
  deriving DecidableEq, Repr

/-- A body element is active or inactive (R184). -/
def ElementClass.isBody : ElementClass → Bool
  | .active | .inactive => true
  | .prestart | .tail => false

/-- The class of element `x` below VLMAX, from the values `vstart`, `vl` and the mask bit have when the instruction begins, for
`vstart ≤ vl` (R185; `vstart > vl` is refused, R189). -/
def elementClass (vstart vl : Nat) (maskBit : Bool) (x : Nat) : ElementClass :=
  if x < vstart then .prestart
  else if x < vl then (if maskBit then .active else .inactive)
  else .tail

end Machine

end Sys2Proof
end

