-- ==== Sys2Proof/Machine/Ops.lean ====
section
/-! DEFINITION. The named operations over registers and memory: scalar registers, whole vector registers and bit slices, elements,
memory and fetch, the completion of an instruction, and the illegal instruction exception. -/

namespace Sys2Proof.Machine

open Config

/-! ### Scalar registers -/

/-- `x[i]` (R24); `x0` reads as zero (D4). Log 10. -/
def Arch.readX {g : Geometry} (a : Arch g) (i : RegNum) : BitVec g.xlen :=
  if i = 0 then 0 else a.x.getD (i.toNat - 1) 0

/-- `x[i] <- w` (R24); a write of `x0` is ignored (D4). Log 10. -/
def Arch.writeX {g : Geometry} (a : Arch g) (i : RegNum) (w : BitVec g.xlen) : Arch g :=
  if i = 0 then a else { a with x := a.x.setIfInBounds (i.toNat - 1) w }

/-- `f[i]` (R25). -/
def Arch.readF {g : Geometry} (a : Arch g) (i : RegNum) : BitVec g.flen := a.f.getD i.toNat 0

/-- `f[i] <- w` (R17, R25). -/
def Arch.writeF {g : Geometry} (a : Arch g) (i : RegNum) (w : BitVec g.flen) : Arch g := { a with f := a.f.setIfInBounds i.toNat w }

/-- The floating-point scalar operand `f[i]` as an unsigned number; with `zfinx` it is `x[i]` (R26, D23). Log 11. -/
def Arch.scalarF {g : Geometry} (a : Arch g) (zfinx : Bool) (i : RegNum) : Nat :=
  if zfinx then (a.readX i).toNat else (a.readF i).toNat

/-- `f[i] <- w` for a number `w`, taken modulo 2 to the power of the register's width; with `zfinx` it is `x[i] <- w` (R17, R26, D23). No instruction of
the spec writes an `f` register: a scalar register destination is refused (R213). Log 11. -/
def Arch.writeScalarF {g : Geometry} (a : Arch g) (zfinx : Bool) (i : RegNum) (w : Nat) : Arch g :=
  if zfinx then a.writeX i (BitVec.ofNat _ w) else a.writeF i (BitVec.ofNat _ w)

/-! ### Vector registers and bit slices -/

/-- `v[n]` (R20). No instruction that passes its operand checks names a register above 31 (R170). -/
def readV {g : Geometry} (v : VRegs g) (n : Nat) : BitVec g.vlen := v.getD n 0

/-- `v[n] <- w` (R20). -/
def writeV {g : Geometry} (v : VRegs g) (n : Nat) (w : BitVec g.vlen) : VRegs g := v.setIfInBounds n w

/-- The bit slice of width `len` from bit `lo` up (R15). -/
def slice {n : Nat} (r : BitVec n) (lo len : Nat) : BitVec len := r.extractLsb' lo len

/-- Write `w` over the bits from `lo` up; bits outside the slice keep their value (R17). -/
def setSlice {n len : Nat} (r : BitVec n) (lo : Nat) (w : BitVec len) : BitVec n :=
  (r &&& ~~~((BitVec.allOnes len).setWidth n <<< lo)) ||| (w.setWidth n <<< lo)

/-! ### Elements -/

/-- `ElemRead` (R118), at the geometry's SLEN. -/
def elemRead {g : Geometry} (v : VRegs g) (base sew lmul i : Nat) : BitVec sew :=
  let loc := elemLoc g.slen sew lmul i
  slice (readV v (base + loc.1)) loc.2 sew

/-- `ElemWrite` (R118), at the geometry's SLEN. -/
def elemWrite {g : Geometry} (v : VRegs g) (base sew lmul i : Nat) (w : BitVec sew) : VRegs g :=
  let loc := elemLoc g.slen sew lmul i
  writeV v (base + loc.1) (setSlice (readV v (base + loc.1)) loc.2 w)

/-- Write elements `0 .. n-1` of a group, those for which `upd` has a value (R200 step 5). -/
def writeElems {g : Geometry} (v : VRegs g) (base sew lmul : Nat) (upd : Nat → Option (BitVec sew)) : Nat → VRegs g
  | 0 => v
  | n + 1 =>
    match upd n with
    | some w => elemWrite (writeElems v base sew lmul upd n) base sew lmul n w
    | none => writeElems v base sew lmul upd n

/-! ### Memory (R32, R54): little-endian, an unlisted address has no value. Log 13. -/

/-- The canonical form: addresses strictly rising. -/
abbrev Memory.wf (m : Memory) : Prop := m.Pairwise fun c d => c.1 < d.1

/-- The byte at an address, if there is one. -/
def Memory.readByte (m : Memory) (a : Nat) : Option Byte :=
  match m with
  | [] => none
  | (b, w) :: rest => if a = b then some w else Memory.readByte rest a

/-- Write one byte, keeping the addresses strictly rising. -/
def Memory.writeByte (m : Memory) (a : Nat) (w : Byte) : Memory :=
  match m with
  | [] => [(a, w)]
  | (b, u) :: rest =>
    if a < b then (a, w) :: (b, u) :: rest
    else if a = b then (a, w) :: rest
    else (b, u) :: Memory.writeByte rest a w

/-- `MemRead(addr, n)` (R17): `n` bytes from `a` up, addresses modulo `2 ^ xlen`, the byte at the lowest address least significant
(R54). No value if a byte has none. -/
def Memory.read (m : Memory) (xlen a : Nat) : Nat → Option Nat
  | 0 => some 0
  | n + 1 =>
    match Memory.readByte m a, Memory.read m xlen ((a + 1) % 2 ^ xlen) n with
    | some b, some rest => some (b.toNat + 256 * rest)
    | _, _ => none

/-- `MemWrite(addr, n, v)` (R17), with the byte order and the addresses of `Memory.read`. -/
def Memory.write (m : Memory) (xlen a value : Nat) : Nat → Memory
  | 0 => m
  | n + 1 => Memory.write (m.writeByte a (BitVec.ofNat 8 value)) xlen ((a + 1) % 2 ^ xlen) (value / 256) n

/-- Place 32-bit words at consecutive addresses (R244: the program text). DESIGN CHOICE (R31: wrap-around is not in the source): the
addresses are taken modulo `2 ^ xlen`, so that the words of a program that reaches the top of the address space go on at address 0, and
of a program that is longer than the space memory shows the later words; the run executes its list all the same (R63). Log 14. -/
def Memory.writeWords (m : Memory) (xlen a : Nat) : List Word → Memory
  | [] => m
  | w :: rest => Memory.writeWords (m.write xlen a w.toNat 4) xlen ((a + 4) % 2 ^ xlen) rest

/-- The instruction word to execute, whose address is `pc`: the next of the list, if the list is not exhausted (R244). The program text is
a parameter of the step, fixed for the run, and no rule reads memory (R32, R50, R63); where a placed program fits in the address space
the word is also the one in memory at `pc` (Safety `TextPlaced`). Logs 13, 14. -/
def State.fetch (s : State) : Option Word := s.program[s.executed]?

/-- What a step adds to an instruction's execution: a completed one is behind in the list (R244). -/
def State.countExecuted (s : State) : Host.Outcome State Fault Refusal → Host.Outcome State Fault Refusal
  | .next t => .next { t with executed := s.executed + 1 }
  | .fault e => .fault e
  | .refused r => .refused r

/-! ### Completion and the illegal instruction exception -/

/-- What every completed instruction does besides its effect: `vstart <- 0 ; pc <- pc + 4` modulo `2 ^ XLEN` (R200 step 6, R201, R31).
Logs 12 and 17. -/
def Arch.complete {g : Geometry} (a : Arch g) : Arch g :=
  { a with vstart := 0, pc := a.pc + BitVec.ofNat g.xlen 4 }

/-- Raise the illegal instruction exception for the word `inst` (R230, R237): a terminal outcome that carries the word, the `pc` and
the cause code (R231); no register is changed. The spec describes no trap entry and no return (R237, R238). Log 8. -/
def raiseIllegal (inst : Word) (s : State) : Host.Outcome State Fault Refusal :=
  .fault (.illegalInstruction inst s.arch.pc.toNat s.params.causeIllegalInstruction)

/-- Complete with the registers `a` (already holding the instruction's own effect). -/
def State.finish (s : State) (a : Arch s.geom) : Host.Outcome State Fault Refusal :=
  .next { s with arch := a.complete }

end Sys2Proof.Machine
end

