-- ==== Sys2Proof/Machine/Flags.lean ====
section
/-! DEFINITION. The predicate state. The hardware has no condition codes and no status flags (R36), so no instruction computes a flag;
its only predicate state is a vector mask, laid out in one vector register (`41_mask_layout.md`). -/

namespace Sys2Proof.Machine

open Config

/-- `MaskBit` (R150, R146): the predicate of element `i` of the mask in register `n`, its least-significant bit alone. -/
def maskBit {g : Geometry} (v : VRegs g) (n mlen i : Nat) : Bool := (readV v n).getLsbD (mlen * i)

/-- `MaskElemRead` (R150, R144): the whole mask element `i`. -/
def maskElemRead {g : Geometry} (v : VRegs g) (n mlen i : Nat) : BitVec mlen := slice (readV v n) (mlen * i) mlen

/-- `MaskElemWrite` (R150, R145): the bit in the least-significant bit of the mask element, zero in its upper bits. -/
def maskElemWrite {g : Geometry} (v : VRegs g) (n mlen i : Nat) (b : Bool) : VRegs g :=
  writeV v n (setSlice (readV v n) (mlen * i) ((BitVec.ofBool b).setWidth mlen))

/-- Write mask elements `0 .. n-1` of register `r`, those for which `upd` has a value (R200 step 5, R147). -/
def writeMaskElems {g : Geometry} (v : VRegs g) (r mlen : Nat) (upd : Nat → Option Bool) : Nat → VRegs g
  | 0 => v
  | n + 1 =>
    match upd n with
    | some b => maskElemWrite (writeMaskElems v r mlen upd n) r mlen n b
    | none => writeMaskElems v r mlen upd n

/-- `mask(i) = (vm = 1) or (v[0][MLEN*i] = 1)` (R166): the mask that controls an instruction is always `v0`. -/
def Arch.maskEnabled {g : Geometry} (a : Arch g) (vm : Bool) (i : Nat) : Bool :=
  vm || maskBit a.v 0 a.vtype.mlen i

end Sys2Proof.Machine
end

