-- ==== Sys2Proof/Machine/Operands.lean ====
section
/-! DEFINITION. The operand forms: the descriptor of a slot, the legality check, scalar and vector source operands, and the result of the
element function (`42_operands_and_masking.md`, R200). -/

namespace Sys2Proof.Machine

open Config

/-! ### Descriptors (R200) -/

/-- Whether a first-field operand kind (bits 19:15) is one the category's field can name (R75, R160, R200 "by category"). -/
def src1Fits (c : Category) (o : Src1) : Bool :=
  match c, o with
  | _, .none => true
  | .opivv, .vgroup _ | .opivv, .mask | .opivv, .scalar0 => true
  | .opfvv, .vgroup _ | .opfvv, .mask | .opfvv, .scalar0 => true
  | .opmvv, .vgroup _ | .opmvv, .mask | .opmvv, .scalar0 => true
  | .opivi, .simm5 => true
  | .opivx, .xreg => true
  | .opfvf, .freg => true
  | .opmvx, .xreg => true
  | _, _ => false

/-- Whether bits 11:7 of the category can name the destination kind: a scalar register only where the figure draws `vd/rd` (R75, R161). -/
def destFits (c : Category) (o : Dest) : Bool :=
  match o with
  | .vgroup _ | .mask | .scalar0 => true
  | .scalar => c = .opfvv || c = .opmvv || c = .opmvx

/-- Whether the operands an example element function uses are there (`95_test_vectors.md` section 3); the examples compute an element of
a group or mask, no scalar result. -/
def fnFits (d : Descriptor) : Bool :=
  match d.fn with
  | .notInSource => true
  | .exampleSum | .exampleLessUnsigned => d.dest ≠ .scalar0 && d.src2 ≠ .none && d.src1 ≠ .none
  | .exampleIndexPlus => d.dest ≠ .scalar0 && d.src1 ≠ .none
  | .exampleCopy => d.dest ≠ .scalar0 && d.src2 ≠ .none

/-- The domain of the parameter `Desc`: a descriptor fits the category of its slot. Log 3. -/
def descriptorFits (c : Category) (d : Descriptor) : Bool := src1Fits c d.src1 && destFits c d.dest && fnFits d

/-- The descriptor of a slot: the first entry of the table for it that fits, if any (R200 step 1). Log 3. -/
def descFor (table : List (Slot × Descriptor)) (slot : Slot) : Option Descriptor :=
  match table with
  | [] => none
  | (k, d) :: rest => if k = slot ∧ descriptorFits slot.category d = true then some d else descFor rest slot

/-- The plain descriptor of a category: one group for each vector operand, maskable, tail zeroed, the element function left open. It
is what the loading of a one-word program supplies for a slot without a descriptor. DESIGN CHOICE: log 14. -/
def plainDescriptor (c : Category) : Descriptor where
  maskable := true
  zeroesTail := true
  dest := .vgroup 0
  src2 := .vgroup 0
  src1 :=
    match c with
    | .opivv | .opfvv | .opmvv => .vgroup 0
    | .opivi => .simm5
    | .opivx | .opmvx => .xreg
    | .opfvf => .freg
  readsDest := true
  fn := .notInSource

/-! ### The legality check (R170) -/

/-- The kind of a vector register operand (R170). -/
inductive OperandKind
  /-- A group of width multiplier `2 ^ kLog` (R163, R164). -/
  | group (kLog : Nat)
  /-- A mask, one register (R140). -/
  | mask
  /-- A scalar in element 0 (R162). -/
  | scalar0
  deriving DecidableEq, Repr

/-- A vector register operand of an instruction (R170). -/
structure Operand where
  n : Nat
  kind : OperandKind
  isDest : Bool
  deriving DecidableEq, Repr

/-- The number of registers of an operand under LMUL (R170). -/
def OperandKind.size (lmul : Nat) : OperandKind → Nat
  | .group kLog => 2 ^ kLog * lmul
  | .mask => 1
  | .scalar0 => 1

/-- Whether one operand passes the checks of R163 (lowest register of its group), R164 (at most 8 registers) and R167 (a masked
destination at `v0` with LMUL > 1); a scalar in element 0 is exempt (R162, D18). Logs 19, 20, 31. -/
def operandOk (vm : Bool) (lmul : Nat) (o : Operand) : Bool :=
  match o.kind with
  | .scalar0 => true
  | .group _ | .mask =>
    decide (o.kind.size lmul ≤ 8) && decide (o.n % o.kind.size lmul = 0) &&
      !(o.isDest && !vm && decide (1 < lmul) && decide (o.n = 0))

/-- `CheckOperands` (R170): `false` raises the illegal instruction exception. -/
def checkOperands (vm : Bool) (lmul : Nat) (ops : List Operand) : Bool := ops.all (operandOk vm lmul)

/-- The vector register operands of an instruction by its descriptor (R170, R200). -/
def vectorOperands (d : Descriptor) (vs2 f19 f11 : RegNum) : List Operand :=
  (match d.dest with
    | .vgroup k => [⟨f11.toNat, .group k, true⟩]
    | .mask => [⟨f11.toNat, .mask, true⟩]
    | .scalar0 => [⟨f11.toNat, .scalar0, true⟩]
    | .scalar => []) ++
  (match d.src2 with
    | .vgroup k => [⟨vs2.toNat, .group k, false⟩]
    | .mask => [⟨vs2.toNat, .mask, false⟩]
    | .scalar0 => [⟨vs2.toNat, .scalar0, false⟩]
    | .none => []) ++
  (match d.src1 with
    | .vgroup k => [⟨f19.toNat, .group k, false⟩]
    | .mask => [⟨f19.toNat, .mask, false⟩]
    | .scalar0 => [⟨f19.toNat, .scalar0, false⟩]
    | .simm5 | .xreg | .freg | .none => [])

/-! ### Source operands (R200 step 4) -/

/-- `simm5` as a two's-complement number extended to SEW bits (R81), as the unsigned number of those bits. Log 29. -/
def simm5Value (sew : Nat) (simm5 : BitVec 5) : Nat := (simm5.signExtend sew).toNat

/-- Element 0 of any vector register as a scalar of SEW bits (R162, R119). -/
def Arch.scalar0 {g : Geometry} (a : Arch g) (n : RegNum) : Nat := (slice (readV a.v n.toNat) 0 a.vtype.sew).toNat

/-- Element `x` of the group operand of width multiplier `2 ^ kLog` at register `n`, as an unsigned number (R118). `ElemLoc` is used
unconditionally (N53): of an element wider than a register, the register at its place holds the low VLEN bits, and the bits above are
the free value `Config.absentBits`. Log 24. -/
def Arch.groupElem {g : Geometry} (a : Arch g) (n : RegNum) (kLog x : Nat) : Nat :=
  let width := a.vtype.widened kLog
  let held := (elemRead a.v n.toNat width (a.vtype.groupSize kLog) x).toNat
  if width ≤ g.vlen then held
  else held + 2 ^ g.vlen * (Config.absentBits a.v a.pc.toNat n.toNat width x % 2 ^ (width - g.vlen))

/-- Element `x` of a mask operand: its predicate bit (R150). -/
def Arch.maskElem {g : Geometry} (a : Arch g) (n : RegNum) (x : Nat) : Nat := (maskBit a.v n.toNat a.vtype.mlen x).toNat

/-- `a2[x]` of R200 step 4. -/
def Arch.source2 {g : Geometry} (a : Arch g) (o : Src2) (vs2 : RegNum) (x : Nat) : Option Nat :=
  match o with
  | .vgroup k => some (a.groupElem vs2 k x)
  | .mask => some (a.maskElem vs2 x)
  | .scalar0 => some (a.scalar0 vs2)
  | .none => none

/-- `a1[x]` of R200 step 4: an element, or the scalar for every `x` (an `x` or `f` register in its own width, R216). -/
def Arch.source1 {g : Geometry} (a : Arch g) (zfinx : Bool) (o : Src1) (f19 : RegNum) (x : Nat) : Option Nat :=
  match o with
  | .vgroup k => some (a.groupElem f19 k x)
  | .mask => some (a.maskElem f19 x)
  | .scalar0 => some (a.scalar0 f19)
  | .simm5 => some (simm5Value a.vtype.sew f19)
  | .xreg => some (a.readX f19).toNat
  | .freg => some (a.scalarF zfinx f19)
  | .none => none

/-- The element `x` that the destination holds (R200 step 4 `d[x]`). -/
def Arch.destElem {g : Geometry} (a : Arch g) (o : Dest) (f11 : RegNum) (x : Nat) : Nat :=
  match o with
  | .vgroup k => a.groupElem f11 k x
  | .mask => a.maskElem f11 x
  | .scalar0 => a.scalar0 f11
  | .scalar => 0

/-! ### The element function (R200) -/

/-- `F(x, a2, a1, d_old)` as an exact number, narrowed by the caller to the width of the destination element. The open function is the
free value `Config.elementFn`; the others are the examples of `95_test_vectors.md` section 3. Log 4. -/
def applyElemFn (fn : ElemFn) (slot : Slot) (sew width x : Nat) (a2 a1 dOld : Option Nat) : Nat :=
  match fn with
  | .notInSource => Config.elementFn slot sew width x a2 a1 dOld
  | .exampleSum => a2.getD 0 + a1.getD 0
  | .exampleIndexPlus => x + a1.getD 0
  | .exampleCopy => a2.getD 0
  | .exampleLessUnsigned => if a2.getD 0 < a1.getD 0 then 1 else 0

/-- The result for active element `x`, everything read from the state before the instruction (R200 step 4, D29). Log 21. -/
def Arch.elemResult {g : Geometry} (a : Arch g) (zfinx : Bool) (slot : Slot) (d : Descriptor) (vs2 f19 f11 : RegNum)
    (width x : Nat) : Nat :=
  applyElemFn d.fn slot a.vtype.sew width x (a.source2 d.src2 vs2 x) (a.source1 zfinx d.src1 f19 x)
    (if d.readsDest then some (a.destElem d.dest f11 x) else none)

/-- What the instruction reads for body element `x` (R166, R200 step 4). -/
def Arch.bodyElement {g : Geometry} (a : Arch g) (zfinx : Bool) (d : Descriptor) (vm : Bool) (vs2 f19 : RegNum) (x : Nat) :
    Config.BodyElement where
  enabled := a.maskEnabled vm x
  a2 := a.source2 d.src2 vs2 x
  a1 := a.source1 zfinx d.src1 f19 x

/-- The scalar result of an instruction that writes element 0 of a vector register: the free value `Config.scalarFn` of all it reads
(R161). Logs 21 and 33. -/
def Arch.scalarResult {g : Geometry} (a : Arch g) (zfinx : Bool) (slot : Slot) (d : Descriptor) (vm : Bool) (vs2 f19 f11 : RegNum) : Nat :=
  Config.scalarFn slot a.vtype.sew a.vstart
    ((List.range (a.vl - a.vstart)).map fun j => a.bodyElement zfinx d vm vs2 f19 (a.vstart + j)) (a.scalar0 f11)

end Sys2Proof.Machine
end

