-- ==== Sys2Proof/Machine/Template.lean ====
section
/-! DEFINITION. The generic vector instruction (R200): the template that every OP-V arithmetic instruction executes with the descriptor of
its slot. -/

namespace Sys2Proof.Machine

open Config

/-- The value of destination element `x` after the instruction, if it is written (R200 step 5): the result for an active element
(R181), zero for a tail element where the tail is zeroed (R183, R186, D30; log 22), nothing for a prestart or inactive one (R180,
R182). -/
def Arch.elemUpdate {g : Geometry} (a : Arch g) (zfinx : Bool) (slot : Slot) (d : Descriptor) (vm : Bool) (vs2 f19 f11 : RegNum)
    (width x : Nat) : Option Nat :=
  match elementClass a.vstart a.vl (a.maskEnabled vm x) x with
  | .active => some (a.elemResult zfinx slot d vs2 f19 f11 width x)
  | .tail => if d.zeroesTail then some 0 else none
  | .prestart | .inactive => none

/-- Steps 4 and 5 of R200 for a vector register group destination of width multiplier `2 ^ kLog`. Of an element wider than a register the
bits that the register at its place has are written, and all other bits are unchanged (R118). Log 24. -/
def Arch.updateGroup {g : Geometry} (a : Arch g) (zfinx : Bool) (slot : Slot) (d : Descriptor) (vm : Bool) (vs2 f19 vd : RegNum)
    (kLog : Nat) : VRegs g :=
  writeElems a.v vd.toNat (a.vtype.widened kLog) (a.vtype.groupSize kLog)
    (fun x => (a.elemUpdate zfinx slot d vm vs2 f19 vd (a.vtype.widened kLog) x).map (BitVec.ofNat _)) a.vtype.vlmax

/-- Steps 4 and 5 of R200 for a mask destination: a one-bit result, written as a mask element (R145, R147). -/
def Arch.updateMask {g : Geometry} (a : Arch g) (zfinx : Bool) (slot : Slot) (d : Descriptor) (vm : Bool) (vs2 f19 vd : RegNum) :
    VRegs g :=
  writeMaskElems a.v vd.toNat a.vtype.mlen
    (fun x => (a.elemUpdate zfinx slot d vm vs2 f19 vd 1 x).map (fun r => decide (r % 2 = 1))) a.vtype.vlmax

/-- A scalar result in element 0 of the vector register (R161, R162): bits `[SEW-1:0]`; every other bit keeps its value, tail zeroing
being for vector and mask destinations alone (R190). DESIGN CHOICE: the class rules (R180, R182, R183) are read as rules for the elements
of a vector or mask destination, and the free value is written also when element 0 is prestart, inactive or tail by its index. Log 33. -/
def Arch.updateScalar0 {g : Geometry} (a : Arch g) (zfinx : Bool) (slot : Slot) (d : Descriptor) (vm : Bool) (vs2 f19 vd : RegNum) :
    VRegs g :=
  writeV a.v vd.toNat
    (setSlice (readV a.v vd.toNat) 0 (BitVec.ofNat a.vtype.sew (a.scalarResult zfinx slot d vm vs2 f19 vd)))

/-- Execute an OP-V arithmetic instruction by the template (R200): the descriptor and the element range (step 1), the operand checks
(step 2), `vm` on an unmaskable instruction (step 3), then the update and the completion (steps 4 to 6). A scalar in element 0
is written (R161; log 33), a scalar register destination is refused (R213, R214, R218; log 25). `inst` is the instruction's own word. -/
def execTemplate (slot : Slot) (inst : Word) (vm : Bool) (vs2 f19 f11 : RegNum) (s : State) : Host.Outcome State Fault Refusal :=
  match descFor s.params.desc slot with
  | none => .refused .semanticsNotInSource
  | some d =>
    let a := s.arch
    let ops := vectorOperands d vs2 f19 f11
    if a.vl < a.vstart ∨ a.vtype.vlmax < a.vl then .refused .elementClassesOverlap
    else if checkOperands vm a.vtype.lmul.toNat ops = false then raiseIllegal inst s
    else if vm = false ∧ d.maskable = false then .refused .vmOnUnmaskable
    else
      match d.dest with
      | .vgroup k => s.finish { a with v := a.updateGroup s.params.zfinx slot d vm vs2 f19 f11 k }
      | .mask => s.finish { a with v := a.updateMask s.params.zfinx slot d vm vs2 f19 f11 }
      | .scalar0 => s.finish { a with v := a.updateScalar0 s.params.zfinx slot d vm vs2 f19 f11 }
      | .scalar => .refused .scalarDestination

end Sys2Proof.Machine
end

