-- ==== Sys2Proof/Machine/Arithmetic.lean ====
section
/-! DEFINITION. The seven OP-V arithmetic categories (R212 to R218), each the template R200 on its own fields. -/

namespace Sys2Proof.Machine

/-- OPIVV: two vector sources, a vector destination (R212). -/
def execOpivv (funct6 : BitVec 6) (vm : Bool) (vs2 vs1 vd : RegNum) (s : State) : Host.Outcome State Fault Refusal :=
  execTemplate ⟨.opivv, funct6⟩ (encode (.opivv funct6 vm vs2 vs1 vd)) vm vs2 vs1 vd s

/-- OPFVV: two vector sources; the destination is a group, a mask, a scalar in element 0 or a scalar register by the descriptor (R213,
R161). -/
def execOpfvv (funct6 : BitVec 6) (vm : Bool) (vs2 vs1 vdRd : RegNum) (s : State) : Host.Outcome State Fault Refusal :=
  execTemplate ⟨.opfvv, funct6⟩ (encode (.opfvv funct6 vm vs2 vs1 vdRd)) vm vs2 vs1 vdRd s

/-- OPMVV: two vector sources; the destination as in OPFVV (R214). -/
def execOpmvv (funct6 : BitVec 6) (vm : Bool) (vs2 vs1 vdRd : RegNum) (s : State) : Host.Outcome State Fault Refusal :=
  execTemplate ⟨.opmvv, funct6⟩ (encode (.opmvv funct6 vm vs2 vs1 vdRd)) vm vs2 vs1 vdRd s

/-- OPIVI: a vector source and the immediate `simm5` (R215). -/
def execOpivi (funct6 : BitVec 6) (vm : Bool) (vs2 : RegNum) (simm5 : BitVec 5) (vd : RegNum) (s : State) :
    Host.Outcome State Fault Refusal :=
  execTemplate ⟨.opivi, funct6⟩ (encode (.opivi funct6 vm vs2 simm5 vd)) vm vs2 simm5 vd s

/-- OPIVX: a vector source and the scalar `x[rs1]` (R216). -/
def execOpivx (funct6 : BitVec 6) (vm : Bool) (vs2 rs1 vd : RegNum) (s : State) : Host.Outcome State Fault Refusal :=
  execTemplate ⟨.opivx, funct6⟩ (encode (.opivx funct6 vm vs2 rs1 vd)) vm vs2 rs1 vd s

/-- OPFVF: a vector source and the scalar `f[rs1]`, with `zfinx` `x[rs1]` (R217). -/
def execOpfvf (funct6 : BitVec 6) (vm : Bool) (vs2 rs1 vd : RegNum) (s : State) : Host.Outcome State Fault Refusal :=
  execTemplate ⟨.opfvf, funct6⟩ (encode (.opfvf funct6 vm vs2 rs1 vd)) vm vs2 rs1 vd s

/-- OPMVX: a vector source and the scalar `x[rs1]`; the destination as in OPMVV (R218). -/
def execOpmvx (funct6 : BitVec 6) (vm : Bool) (vs2 rs1 vdRd : RegNum) (s : State) : Host.Outcome State Fault Refusal :=
  execTemplate ⟨.opmvx, funct6⟩ (encode (.opmvx funct6 vm vs2 rs1 vdRd)) vm vs2 rs1 vdRd s

end Sys2Proof.Machine
end

