-- ==== Sys2Proof/Machine/Configuration.lean ====
section
/-! DEFINITION. Vector configuration: `vsetvli` and `vsetvl` (R201, R202) over the open parameter `VsetEffect` (D21). -/

namespace Sys2Proof.Machine

open Config

/-- What `VsetEffect` answers: the new `vtype`, the new `vl` and the value for `x[rd]` (R201). -/
structure VsetResult (g : Geometry) where
  vtype : VType g
  vl : Nat
  rdValue : Nat
  deriving DecidableEq, Repr

/-- Fit an open answer to the legal range of the parameter (R201, D21): a legal SEW and LMUL, and `vl` at most the new VLMAX. Every
legal answer is kept as it is. Log 5. -/
def fitVset (g : Geometry) (r : VsetRaw) : VsetResult g :=
  let t : VType g := ⟨⟨min r.sewLog g.elenLog, by omega⟩, r.lmul⟩
  ⟨t, min r.vl t.vlmax, r.rdValue⟩

/-- LMUL from bits 1:0 of a setting in the 0.7.x layout (G3). -/
def lmulOfSetting (setting : Nat) : Lmul :=
  match setting % 4 with
  | 0 => .m1
  | 1 => .m2
  | 2 => .m4
  | _ => .m8

/-- `VsetEffect_07` (G5, general knowledge): no answer for a setting that cannot be represented (an SEW above ELEN, or a bit above
bit 4 set). -/
def vsetEffect07 {g : Geometry} (a : Arch g) (rs1 : RegNum) (setting : Nat) : Option (VsetResult g) :=
  if h : setting / 4 % 8 < g.elenLog + 1 ∧ setting / 32 = 0 then
    let t : VType g := ⟨⟨setting / 4 % 8, h.1⟩, lmulOfSetting setting⟩
    let avl := if rs1 = 0 then 2 ^ g.xlen - 1 else (a.readX rs1).toNat
    let vl := min avl t.vlmax
    some ⟨t, vl, vl⟩
  else none

/-- The parameter `VsetEffect` (R201, D21): open, the free value `Config.vsetRaw` of the whole state; or the 0.7.x instantiation. -/
def vsetEffect (s : State) (rs1 : RegNum) (setting : Nat) : Option (VsetResult s.geom) :=
  match s.params.vsetEffect with
  | .open_ => some (fitVset s.geom (Config.vsetRaw s rs1.toNat setting))
  | .draft07 => vsetEffect07 s.arch rs1 setting

/-- The shared effect of `vsetvli` and `vsetvl` (R201): `vtype`, `vl` and `x[rd]` written, `vstart` cleared, `pc` advanced; no vector
register changes (R22). -/
def vset (rs1 rd : RegNum) (setting : Nat) (s : State) : Host.Outcome State Fault Refusal :=
  match vsetEffect s rs1 setting with
  | some r => s.finish (({ s.arch with vtype := r.vtype, vl := r.vl } : Arch s.geom).writeX rd (BitVec.ofNat _ r.rdValue))
  | none => .refused .settingNotRepresentable

/-- `vsetvli rd, rs1, zimm[10:0]`: the setting is the zero-extended immediate (R201, R82). -/
def execVsetvli (zimm : BitVec 11) (rs1 rd : RegNum) (s : State) : Host.Outcome State Fault Refusal :=
  vset rs1 rd zimm.toNat s

/-- `vsetvl rd, rs1, rs2`: the setting is `x[rs2]` (R202). -/
def execVsetvl (rs2 rs1 rd : RegNum) (s : State) : Host.Outcome State Fault Refusal :=
  vset rs1 rd (s.arch.readX rs2).toNat s

end Sys2Proof.Machine
end

