-- ==== Sys2Proof/Machine/MemoryAccess.lean ====
section
/-! DEFINITION. The vector loads, stores and AMOs. The spec decodes them and then refuses them before any operand check, because their
addresses, widths and group sizes are not in the source (R50, D10; log 26). -/

namespace Sys2Proof.Machine

/-- The vector loads: `Refuse(memory-semantics-not-in-source)` (R203 to R206). -/
def execVload (_nf _mop : BitVec 3) (_vm : Bool) (_f24 _rs1 : RegNum) (_width : BitVec 3) (_vd : RegNum) (_s : State) :
    Host.Outcome State Fault Refusal :=
  .refused .memorySemanticsNotInSource

/-- The vector stores: `Refuse(memory-semantics-not-in-source)` (R207 to R210). -/
def execVstore (_nf _mop : BitVec 3) (_vm : Bool) (_f24 _rs1 : RegNum) (_width : BitVec 3) (_vs3 : RegNum) (_s : State) :
    Host.Outcome State Fault Refusal :=
  .refused .memorySemanticsNotInSource

/-- The vector AMOs: `Refuse(memory-semantics-not-in-source)` (R211). -/
def execVamo (_amoop : BitVec 5) (_wd _vm : Bool) (_vs2 _rs1 : RegNum) (_width : BitVec 3) (_vs3Vd : RegNum) (_s : State) :
    Host.Outcome State Fault Refusal :=
  .refused .memorySemanticsNotInSource

end Sys2Proof.Machine
end

