-- ==== Sys2Proof/Machine/Dispatch.lean ====
section
/-! DEFINITION. One arm per instruction. -/

namespace Sys2Proof.Machine

def exec (i : Instr) (s : State) : Host.Outcome State Fault Refusal :=
  match i with
  | .vsetvli zimm rs1 rd => Sys2Proof.Machine.execVsetvli zimm rs1 rd s
  | .vsetvl rs2 rs1 rd => Sys2Proof.Machine.execVsetvl rs2 rs1 rd s
  | .opivv funct6 vm vs2 vs1 vd => Sys2Proof.Machine.execOpivv funct6 vm vs2 vs1 vd s
  | .opfvv funct6 vm vs2 vs1 vdRd => Sys2Proof.Machine.execOpfvv funct6 vm vs2 vs1 vdRd s
  | .opmvv funct6 vm vs2 vs1 vdRd => Sys2Proof.Machine.execOpmvv funct6 vm vs2 vs1 vdRd s
  | .opivi funct6 vm vs2 simm5 vd => Sys2Proof.Machine.execOpivi funct6 vm vs2 simm5 vd s
  | .opivx funct6 vm vs2 rs1 vd => Sys2Proof.Machine.execOpivx funct6 vm vs2 rs1 vd s
  | .opfvf funct6 vm vs2 rs1 vd => Sys2Proof.Machine.execOpfvf funct6 vm vs2 rs1 vd s
  | .opmvx funct6 vm vs2 rs1 vdRd => Sys2Proof.Machine.execOpmvx funct6 vm vs2 rs1 vdRd s
  | .vload nf mop vm f24 rs1 width vd => Sys2Proof.Machine.execVload nf mop vm f24 rs1 width vd s
  | .vstore nf mop vm f24 rs1 width vs3 => Sys2Proof.Machine.execVstore nf mop vm f24 rs1 width vs3 s
  | .vamo amoop wd vm vs2 rs1 width vs3Vd => Sys2Proof.Machine.execVamo amoop wd vm vs2 rs1 width vs3Vd s

end Sys2Proof.Machine
end

