-- ==== Sys2Proof/Machine/Loading.lean ====
section
/-! DEFINITION. How a program is placed from outside before a run: the list of its words, the words at consecutive addresses from `pc`, and the
descriptors of their slots (R244; `95_test_vectors.md` section 3: "Descriptors (`Desc` entries) are supplied by the program"). Log 14. -/

namespace Sys2Proof.Machine

open Config

/-- The table with a plain descriptor for the slot of a word that is OP-V arithmetic and has none. -/
def supplyDescriptor (p : Params) (w : Word) : List (Slot × Descriptor) :=
  match decode p.vectorWidths w with
  | .instr i =>
    match i.slot with
    | some slot =>
      match descFor p.desc slot with
      | some _ => p.desc
      | none => (slot, plainDescriptor slot.category) :: p.desc
    | none => p.desc
  | .illegal | .notInThisSpec => p.desc

/-- The parameters with a plain descriptor supplied for every word of a program whose slot has none. -/
def supplyDescriptors (p : Params) : List Word → Params
  | [] => p
  | w :: rest => supplyDescriptors { p with desc := supplyDescriptor p w } rest

/-- Place a program at `pc` (R244): the list of the run, from its beginning, and its words in memory at consecutive addresses. Log 14. -/
def State.loadProgram (s : State) (words : List Word) : State :=
  { s with
    params := supplyDescriptors s.params words
    mem := s.mem.writeWords s.geom.xlen s.arch.pc.toNat words
    program := words
    executed := 0 }

end Sys2Proof.Machine
end

