-- ==== Sys2Proof/Machine/Step.lean ====
section
/-! DEFINITION. One step: take the next word of the program, decode it, execute it (R244, R89). -/

namespace Sys2Proof.Machine

/-- One step (R244): the run ends where the list of words is exhausted; an unmatched configuration word raises the illegal instruction exception
(R85(a)); a word outside the formats is refused (R89). -/
def step (s : State) : Host.Outcome State Fault Refusal :=
  match s.fetch with
  | none => .fault (.endOfProgram s.arch.pc.toNat)
  | some w =>
    match decode s.params.vectorWidths w with
    | .instr i => s.countExecuted (exec i s)
    | .illegal => raiseIllegal w s
    | .notInThisSpec => .refused .notInThisSpec

/-- The state with a one-word program loaded, so that the next step runs that word: the list of one word, the word at `pc`, and the descriptor
of its slot where the table has none (log 14). -/
def State.withFetchWord (s : State) (nbits w : Nat) : State := s.loadProgram [BitVec.ofNat 32 (w % 2 ^ nbits)]

end Sys2Proof.Machine
end

