-- ==== Sys2Proof/Safety.lean ====
section
/-! DEFINITION. What counts as a safe state, a final state and a completed step, in the terms the statements use. -/

namespace Sys2Proof.Safety

open Config Machine

/-- The invariants the spec lets a model assume between instructions (R34, D7): `vl` at most VLMAX (a legal `vtype` is in its type, and
`vstart` is any number); and the model's own: memory in canonical form, its addresses below `2 ^ XLEN`. -/
def StateInv (s : State) : Prop :=
  s.arch.vl ≤ s.arch.vtype.vlmax ∧ s.mem.wf ∧ ∀ c ∈ s.mem, c.1 < 2 ^ s.geom.xlen

/-- The program text lies in memory (R244, R54): every word of the list that is still to be executed is read little-endian at its address,
`pc` and on by 4 modulo `2 ^ XLEN`. -/
def TextPlaced (s : State) : Prop :=
  ∀ k w, s.program[s.executed + k]? = some w → s.mem.read s.geom.xlen ((s.arch.pc.toNat + 4 * k) % 2 ^ s.geom.xlen) 4 = some w.toNat

/-- `n` completed steps lead from `s` to `t`. -/
def StepsTo : Nat → State → State → Prop
  | 0, s, t => t = s
  | n + 1, s, t => ∃ u, step s = .next u ∧ StepsTo n u t

/-- A state in which the run has ended (R244): the list of words is exhausted. -/
def Final (s : State) : Prop := s.fetch = none

/-- What every completed step leaves alone and does (R31, R63, R200 step 6, R201, R244): the parameters, memory, the program text and `f`
are unchanged, `vstart` is 0, `pc` has advanced by 4 modulo `2 ^ XLEN`, one more word of the list is executed. -/
def CompletesFrom (s t : State) : Prop :=
  ∃ a : Arch s.geom, t = { s with arch := a, executed := s.executed + 1 } ∧ a.f = s.arch.f ∧ a.vstart = 0 ∧
    a.pc = s.arch.pc + BitVec.ofNat s.geom.xlen 4

/-- When an OP-V arithmetic instruction executes through the template, on the state and the operands alone (R200 steps 1 to 3): its slot
has the descriptor `d`, the element range is consistent, the operand checks pass, and masking is available if used. -/
structure Executes (s : State) (slot : Slot) (d : Descriptor) (vm : Bool) (vs2 f19 f11 : RegNum) : Prop where
  desc : descFor s.params.desc slot = some d
  start : s.arch.vstart ≤ s.arch.vl
  length : s.arch.vl ≤ s.arch.vtype.vlmax
  legal : checkOperands vm s.arch.vtype.lmul.toNat (vectorOperands d vs2 f19 f11) = true
  maskable : vm = true ∨ d.maskable = true

/-- What the fields of a category can name, as its figure draws them (R75, R160, R161): `simm5`, an `x` or an `f` register in bits 19:15
of the category that has it, a vector register there in the `..VV` categories alone, a scalar register in bits 11:7 where the figure
draws `vd/rd`. -/
structure FieldsName (c : Category) (d : Descriptor) : Prop where
  immediate : d.src1 = .simm5 → c = .opivi
  integer : d.src1 = .xreg → c = .opivx ∨ c = .opmvx
  float : d.src1 = .freg → c = .opfvf
  vector : (∃ k, d.src1 = .vgroup k) ∨ d.src1 = .mask ∨ d.src1 = .scalar0 → c = .opivv ∨ c = .opfvv ∨ c = .opmvv
  scalarDest : d.dest = .scalar → c = .opfvv ∨ c = .opmvv ∨ c = .opmvx

/-- Instruction `i` is a vector configuration with the AVL source `rs1`, the destination `rd` and, in the state `s`, the new setting
`setting`: the immediate of `vsetvli`, or `x[rs2]` of `vsetvl` (R201, R202). -/
def Configures (s : State) (i : Instr) (rs1 rd : RegNum) (setting : Nat) : Prop :=
  (∃ zimm, i = .vsetvli zimm rs1 rd ∧ setting = zimm.toNat) ∨ ∃ rs2, i = .vsetvl rs2 rs1 rd ∧ setting = (s.arch.readX rs2).toNat

/-- The registers after context-restore code has reloaded every group, under one setting `t`, with the elements saved from `v` under the
same setting (R65, R265): the groups start at the multiples of LMUL, every element below VLMAX is written. -/
def reloadAll {g : Geometry} (t : VType g) (v w : VRegs g) : VRegs g :=
  (List.range (32 / t.lmul.toNat)).foldl
    (fun u q => writeElems u (q * t.lmul.toNat) t.sew t.lmul.toNat
      (fun i => some (elemRead v (q * t.lmul.toNat) t.sew t.lmul.toNat i)) t.vlmax) w

/-- Two machines that may differ in SLEN alone among what an arithmetic instruction reads (R122): the same parameters, VLEN, SEW, LMUL,
`vl`, `vstart`, the same mask bits, and for every element index the same operand values by the descriptor `d`. -/
structure SameButStriping (s t : State) (d : Descriptor) (vs2 f19 f11 : RegNum) : Prop where
  params : t.params = s.params
  vlen : t.geom.vlenLog = s.geom.vlenLog
  sew : t.arch.vtype.sewLog.val = s.arch.vtype.sewLog.val
  lmul : t.arch.vtype.lmul = s.arch.vtype.lmul
  vl : t.arch.vl = s.arch.vl
  vstart : t.arch.vstart = s.arch.vstart
  mask : ∀ x < s.arch.vtype.vlmax, maskBit t.arch.v 0 t.arch.vtype.mlen x = maskBit s.arch.v 0 s.arch.vtype.mlen x
  source2 : ∀ x < s.arch.vtype.vlmax, t.arch.source2 d.src2 vs2 x = s.arch.source2 d.src2 vs2 x
  source1 : ∀ x < s.arch.vtype.vlmax, t.arch.source1 t.params.zfinx d.src1 f19 x = s.arch.source1 s.params.zfinx d.src1 f19 x
  dest : ∀ x < s.arch.vtype.vlmax, t.arch.destElem d.dest f11 x = s.arch.destElem d.dest f11 x

end Sys2Proof.Safety
end

