-- ==== Sys2Proof/Certificates/Slice0/Obligations.lean ====
section
/-! DEFINITION. The statements for the provers: what the rules of `spec/` say of the encoding, the mapping, masks, the instructions, the
step and the invariant. In a statement over `arith c`, the category `c` ranges over all seven of OP-V arithmetic. -/

open Sys2Proof Sys2Proof.Config Sys2Proof.Machine Sys2Proof.Safety

/-! ### Encoding and decoding -/

/-- A well-formed instruction, any of the twelve forms with every field at every value, is read back from its word (R72 to R78, R89). -/
def Obligations.EncodeThenDecodeReturnsInstruction : Prop :=
  ∀ (p : VectorWidths) (i : Instr), i.wellFormed p = true → decode p (encode i) = .instr i

/-- No bit of a decoded word is dropped: the word is the encoding of the well-formed instruction it decodes to (R89). -/
def Obligations.DecodedWordIsEncodingOfInstruction : Prop :=
  ∀ (p : VectorWidths) (w : Word) (i : Instr), decode p w = .instr i → encode i = w ∧ i.wellFormed p = true

/-- R77: match `0x00007057`, mask `0x8000707F`; every value of `zimm`, `rs1`, `rd` decodes as `vsetvli`. -/
def Obligations.VsetvliRowDecodesWithAllFields : Prop :=
  ∀ (p : VectorWidths) (w : Word), w &&& 0x8000707F#32 = 0x00007057#32 →
    decode p w = .instr (.vsetvli (w.extractLsb' 20 11) (w.extractLsb' 15 5) (w.extractLsb' 7 5))

/-- R78: match `0x80007057`, mask `0xFE00707F`; and a configuration word with bit 31 = 1 and bits 30:25 not all zero is no
instruction: it decodes as the illegal word (R85(a), decision D13). -/
def Obligations.VsetvlRowDecodesAndOthersAreIllegal : Prop :=
  (∀ (p : VectorWidths) (w : Word), w &&& 0xFE00707F#32 = 0x80007057#32 →
    decode p w = .instr (.vsetvl (w.extractLsb' 20 5) (w.extractLsb' 15 5) (w.extractLsb' 7 5))) ∧
  ∀ (p : VectorWidths) (w : Word), w &&& 0x8000707F#32 = 0x80007057#32 → w.extractLsb' 25 6 ≠ 0#6 → decode p w = .illegal

/-- R79: `vm` is instruction bit 25 of every load, store, AMO and arithmetic word and no other bit depends on it; in `vsetvli` bit 25
is part of `zimm`, in `vsetvl` of the zero field; `vm = 0` is masked by the least-significant bit of `v0[i]`, `vm = 1` unmasked. -/
def Obligations.MaskingBitIsInstructionBit25 : Prop :=
  (∀ (i : Bool → Instr),
    ((∃ c f vs2 f19 f11, i = fun vm => .arith c f vm vs2 f19 f11) ∨
      (∃ nf mop f24 rs1 width vd, i = fun vm => .vload nf mop vm f24 rs1 width vd) ∨
      (∃ nf mop f24 rs1 width vs3, i = fun vm => .vstore nf mop vm f24 rs1 width vs3) ∨
      (∃ amoop wd vs2 rs1 width vs3Vd, i = fun vm => .vamo amoop wd vm vs2 rs1 width vs3Vd)) →
    ∀ vm, (encode (i vm)).getLsbD 25 = vm ∧ ∀ j, j ≠ 25 → (encode (i vm)).getLsbD j = (encode (i (!vm))).getLsbD j) ∧
  (∀ zimm rs1 rd, (encode (.vsetvli zimm rs1 rd)).getLsbD 25 = zimm.getLsbD 5) ∧
  (∀ rs2 rs1 rd, (encode (.vsetvl rs2 rs1 rd)).getLsbD 25 = false) ∧
  ∀ (g : Geometry) (a : Arch g) (x : Nat),
    a.maskEnabled true x = true ∧ a.maskEnabled false x = (readV a.v 0).getLsbD (a.vtype.mlen * x)

/-- A word is outside the formats exactly when its major opcode is none of the four, or is a shared one with a width that
`IsVectorWidth` does not mark (R84, decision D24; R89). -/
def Obligations.WordsOutsideTheFormats : Prop :=
  ∀ (p : VectorWidths) (w : Word), decode p w = .notInThisSpec ↔
    w.extractLsb' 0 7 ≠ 0b1010111#7 ∧
    (w.extractLsb' 0 7 = 0b0000111#7 → p.loadFp.getLsbD (w.extractLsb' 12 3).toNat = false) ∧
    (w.extractLsb' 0 7 = 0b0100111#7 → p.storeFp.getLsbD (w.extractLsb' 12 3).toNat = false) ∧
    (w.extractLsb' 0 7 = 0b0101111#7 → p.amo.getLsbD (w.extractLsb' 12 3).toNat = false)

/-- The worked encodings of R90, one of each format and the illegal pattern, under the widths 0, 5, 6, 7 for the shared opcodes. -/
def Obligations.WorkedWordsDecode : Prop :=
  let p : VectorWidths := ⟨0b11100001#8, 0b11100001#8, 0b11100001#8⟩
  decode p 0x00A572D7#32 = .instr (.vsetvli 0x00A 10 5) ∧
  decode p 0x80B572D7#32 = .instr (.vsetvl 11 10 5) ∧
  decode p 0x82B572D7#32 = .illegal ∧
  decode p 0x00C80457#32 = .instr (.opivv 0 false 12 16 8) ∧
  decode p 0x02409157#32 = .instr (.opfvv 0 true 4 1 2) ∧
  decode p 0x0240A157#32 = .instr (.opmvv 0 true 4 1 2) ∧
  decode p 0x022EB357#32 = .instr (.opivi 0 true 2 0b11101 6) ∧
  decode p 0x0045C157#32 = .instr (.opivx 0 false 4 11 2) ∧
  decode p 0x0240D157#32 = .instr (.opfvf 0 true 4 1 2) ∧
  decode p 0x0240E157#32 = .instr (.opmvx 0 true 4 1 2) ∧
  decode p 0x02057207#32 = .instr (.vload 0 0 true 0 10 7 4) ∧
  decode p 0x02057227#32 = .instr (.vstore 0 0 true 0 10 7 4) ∧
  decode p 0x0E85622F#32 = .instr (.vamo 1 true true 8 10 6 4)

/-! ### The mapping of elements to registers -/

/-- R117: `ElemLoc` is a bijection from the indices below VLMAX onto the slots of the group, and `ElemAt` is its inverse. -/
def Obligations.ElementMappingIsBijective : Prop :=
  ∀ (g : Geometry) (t : VType g),
    (∀ i < t.vlmax, ∃ k, k < g.vlen / t.sew ∧ (elemLoc g.slen t.sew t.lmul.toNat i).1 < t.lmul.toNat ∧
      (elemLoc g.slen t.sew t.lmul.toNat i).2 = k * t.sew ∧
      elemAt g.slen t.sew t.lmul.toNat (elemLoc g.slen t.sew t.lmul.toNat i).1 k = i) ∧
    ∀ r < t.lmul.toNat, ∀ k < g.vlen / t.sew, elemAt g.slen t.sew t.lmul.toNat r k < t.vlmax ∧
      elemLoc g.slen t.sew t.lmul.toNat (elemAt g.slen t.sew t.lmul.toNat r k) = (r, k * t.sew)

/-- R113: with LMUL=1, element `i` is `v[n][SEW*i+SEW-1 : SEW*i]`, for every SLEN. -/
def Obligations.SingleRegisterElementsPackInOrder : Prop :=
  ∀ (g : Geometry) (t : VType g) (v : VRegs g) (n i : Nat), t.lmul = .m1 → i < g.vlen / t.sew →
    elemRead v n t.sew t.lmul.toNat i = (readV v n).extractLsb' (t.sew * i) t.sew

/-- R115: for SEW at most SLEN, with `E = SLEN/SEW`, the `q`-th SLEN-bit segment of register `r` of the group holds the elements
`(q*LMUL + r)*E .. (q*LMUL + r)*E + E - 1`, packed from its low end. -/
def Obligations.StripesFillSegmentsRegisterByRegister : Prop :=
  ∀ (g : Geometry) (t : VType g), t.sew ≤ g.slen →
    ∀ q r p, r < t.lmul.toNat → p < g.slen / t.sew →
      elemLoc g.slen t.sew t.lmul.toNat ((q * t.lmul.toNat + r) * (g.slen / t.sew) + p) = (r, q * g.slen + p * t.sew)

/-- R116 with the placement of decision D3 (log 15): for SEW above SLEN the registers of the group take one element each in turn, packed
upward from the least-significant end. -/
def Obligations.WideElementsAlternateBetweenRegisters : Prop :=
  ∀ (g : Geometry) (t : VType g) (i : Nat), g.slen < t.sew →
    elemLoc g.slen t.sew t.lmul.toNat i = (i % t.lmul.toNat, i / t.lmul.toNat * t.sew)

/-- R119: element 0 of any group, under any legal setting, is bits `[SEW-1:0]` of the group's lowest register. -/
def Obligations.ElementZeroIsLowBitsOfLowestRegister : Prop :=
  ∀ (g : Geometry) (t : VType g) (v : VRegs g) (base : Nat),
    elemRead v base t.sew t.lmul.toNat 0 = (readV v base).extractLsb' 0 t.sew

/-- R124 and R149: at an equal ratio SEW/LMUL, widths at most SLEN, element `i` lies in the same SLEN-bit segment under either setting,
segment `i / (SLEN/MLEN)`, and so does its predicate bit. -/
def Obligations.EqualRatioElementsShareSegment : Prop :=
  ∀ (g : Geometry) (t u : VType g), t.sew * u.lmul.toNat = u.sew * t.lmul.toNat → t.sew ≤ g.slen → u.sew ≤ g.slen →
    ∀ i < t.vlmax,
      (elemLoc g.slen t.sew t.lmul.toNat i).2 / g.slen = i / (g.slen / t.mlen) ∧
      (elemLoc g.slen u.sew u.lmul.toNat i).2 / g.slen = (elemLoc g.slen t.sew t.lmul.toNat i).2 / g.slen ∧
      t.mlen * i / g.slen = (elemLoc g.slen t.sew t.lmul.toNat i).2 / g.slen

/-- R55: with LMUL=1, element `j` at twice SEW is elements `2j+1` (high half) and `2j` (low half) at SEW. -/
def Obligations.DoubleWidthViewPairsElements : Prop :=
  ∀ (g : Geometry) (t u : VType g) (v : VRegs g) (n j b : Nat), t.lmul = .m1 → u.lmul = .m1 → u.sew = 2 * t.sew → j < u.vlmax →
    b < t.sew →
      (elemRead v n u.sew 1 j).getLsbD b = (elemRead v n t.sew 1 (2 * j)).getLsbD b ∧
      (elemRead v n u.sew 1 j).getLsbD (t.sew + b) = (elemRead v n t.sew 1 (2 * j + 1)).getLsbD b

/-- R65, R265: all elements of all groups, saved and reloaded under any one setting, restore every bit of every vector register. -/
def Obligations.ContextRestoreRecoversAllRegisters : Prop :=
  ∀ (g : Geometry) (t : VType g) (v w : VRegs g), reloadAll t v w = v

/-- R125: the operating points: the entry for a width and a ratio is the LMUL with `SEW = LMUL * ratio`, and there is none if no
legal LMUL gives the ratio. -/
def Obligations.OperatingPointsKeepTheRatio : Prop :=
  ∀ (sew ratio : Nat) (l : Lmul), 0 < ratio → (operatingLmul sew ratio = some l ↔ l.toNat * ratio = sew)

/-! ### Masks -/

/-- R142: `MLEN = VLEN/VLMAX = SEW/LMUL`, a power of two, and the VLMAX fields of MLEN bits fill the mask register. -/
def Obligations.MaskElementsTileTheRegister : Prop :=
  ∀ (g : Geometry) (t : VType g),
    t.mlen = g.vlen / t.vlmax ∧ t.mlen = t.sew / t.lmul.toNat ∧ t.vlmax * t.mlen = g.vlen ∧ (∃ n, t.mlen = 2 ^ n) ∧
      t.mlen ≤ g.elen

/-- R144, R145, R146: mask element `i` is bits `[MLEN*i+(MLEN-1) : MLEN*i]`; writing it puts the bit in its least-significant bit and
zero above; read as a mask it is bit `MLEN*i` alone, so that bit; no other bit of the register and no other register changes. -/
def Obligations.MaskElementWriteAndRead : Prop :=
  ∀ (g : Geometry) (t : VType g) (v : VRegs g) (n i : Nat) (b : Bool), n < 32 → i < t.vlmax →
    maskElemRead v n t.mlen i = (readV v n).extractLsb' (t.mlen * i) t.mlen ∧
    maskElemRead (maskElemWrite v n t.mlen i b) n t.mlen i = (BitVec.ofBool b).setWidth t.mlen ∧
    maskBit v n t.mlen i = (readV v n).getLsbD (t.mlen * i) ∧
    maskBit (maskElemWrite v n t.mlen i b) n t.mlen i = b ∧
    (∀ j, j < t.mlen * i ∨ t.mlen * i + t.mlen ≤ j →
      (readV (maskElemWrite v n t.mlen i b) n).getLsbD j = (readV v n).getLsbD j) ∧
    ∀ m, m ≠ n → readV (maskElemWrite v n t.mlen i b) m = readV v m

/-- R148: for a constant SEW/LMUL the predicate bit of element `i` is at the same bit of the mask register under every setting. -/
def Obligations.EqualRatioSharesPredicateBits : Prop :=
  ∀ (g : Geometry) (t u : VType g) (v : VRegs g) (n i : Nat), t.sew * u.lmul.toNat = u.sew * t.lmul.toNat →
    t.mlen * i = u.mlen * i ∧ maskBit v n t.mlen i = maskBit v n u.mlen i

/-- R123: with SEW/LMUL constant each group holds the same number of elements. -/
def Obligations.EqualRatioKeepsElementCount : Prop :=
  ∀ (g : Geometry) (t u : VType g), t.sew * u.lmul.toNat = u.sew * t.lmul.toNat → t.vlmax = u.vlmax

/-- R185: the class formulas for an index below VLMAX, `mask(x)` being `unmasked || v0[x].LSB == 1`, for `vstart ≤ vl`. -/
def Obligations.ElementClassFormulas : Prop :=
  ∀ (g : Geometry) (a : Arch g) (vm : Bool) (x : Nat), a.vstart ≤ a.vl → x < a.vtype.vlmax →
    let cl := elementClass a.vstart a.vl (a.maskEnabled vm x) x
    let mask := vm = true ∨ (readV a.v 0).getLsbD (a.vtype.mlen * x) = true
    (cl = .prestart ↔ 0 ≤ x ∧ x < a.vstart) ∧
    (cl = .active ↔ (a.vstart ≤ x ∧ x < a.vl) ∧ mask) ∧
    (cl = .inactive ↔ (a.vstart ≤ x ∧ x < a.vl) ∧ ¬ mask) ∧
    (cl.isBody = true ↔ cl = .active ∨ cl = .inactive) ∧
    (cl = .tail ↔ a.vl ≤ x ∧ x < a.vtype.vlmax)

/-! ### OP-V arithmetic: completion, results and frame -/

/-- R200 for a vector register group destination, all seven categories: whenever the instruction executes, it completes, and each
element of the destination group has the value its class gives it, everything read from the state before (D29, log 21): unchanged if
prestart or inactive, the result of the element function if active, zero if a tail element and the tail is zeroed (D30, log 22). Every
register outside the group is unchanged; of the rest of the state only `vstart` (cleared: D12, log 17) and `pc` (D8, log 12) change.
The result is `elemResult`, whose operands `OperandsAndResultOfAnElement` states; the element function may be the free value of log 4. It is
taken modulo `2^VLEN`: of an element wider than a register, no register holds the bits above (log 24); other results are not touched. -/
def Obligations.ArithmeticCompletesOnGroups : Prop :=
  ∀ (s : State) (c : Category) (f : BitVec 6) (vm : Bool) (vs2 f19 vd : RegNum) (d : Descriptor) (k : Nat),
    Executes s ⟨c, f⟩ d vm vs2 f19 vd → d.dest = .vgroup k →
    ∃ v' : VRegs s.geom,
      exec (.arith c f vm vs2 f19 vd) s =
        .next { s with arch := { s.arch with v := v', vstart := 0, pc := s.arch.pc + BitVec.ofNat s.geom.xlen 4 } } ∧
      (∀ x < s.arch.vtype.vlmax,
        (elementClass s.arch.vstart s.arch.vl (s.arch.maskEnabled vm x) x = .active →
          elemRead v' vd.toNat (s.arch.vtype.widened k) (s.arch.vtype.groupSize k) x =
            BitVec.ofNat _ (s.arch.elemResult s.params.zfinx ⟨c, f⟩ d vs2 f19 vd (s.arch.vtype.widened k) x % 2 ^ s.geom.vlen)) ∧
        (elementClass s.arch.vstart s.arch.vl (s.arch.maskEnabled vm x) x = .tail → d.zeroesTail = true →
          elemRead v' vd.toNat (s.arch.vtype.widened k) (s.arch.vtype.groupSize k) x = 0) ∧
        (elementClass s.arch.vstart s.arch.vl (s.arch.maskEnabled vm x) x = .tail → d.zeroesTail = false →
          elemRead v' vd.toNat (s.arch.vtype.widened k) (s.arch.vtype.groupSize k) x =
            elemRead s.arch.v vd.toNat (s.arch.vtype.widened k) (s.arch.vtype.groupSize k) x) ∧
        (elementClass s.arch.vstart s.arch.vl (s.arch.maskEnabled vm x) x = .prestart ∨
            elementClass s.arch.vstart s.arch.vl (s.arch.maskEnabled vm x) x = .inactive →
          elemRead v' vd.toNat (s.arch.vtype.widened k) (s.arch.vtype.groupSize k) x =
            elemRead s.arch.v vd.toNat (s.arch.vtype.widened k) (s.arch.vtype.groupSize k) x)) ∧
      ∀ n, n < vd.toNat ∨ vd.toNat + s.arch.vtype.groupSize k ≤ n → readV v' n = readV s.arch.v n

/-- R200 for a mask destination, all seven categories: the instruction completes, an active mask element is the zero-extended one-bit
result (R145), a tail one is zero if the tail is zeroed, the others keep all their bits; no other register changes. The element function
may be the free value of log 4; `vstart` and `pc` are logs 17 and 12, reads before writes log 21, the tail flag log 22. -/
def Obligations.ArithmeticCompletesOnMasks : Prop :=
  ∀ (s : State) (c : Category) (f : BitVec 6) (vm : Bool) (vs2 f19 vd : RegNum) (d : Descriptor),
    Executes s ⟨c, f⟩ d vm vs2 f19 vd → d.dest = .mask →
    ∃ v' : VRegs s.geom,
      exec (.arith c f vm vs2 f19 vd) s =
        .next { s with arch := { s.arch with v := v', vstart := 0, pc := s.arch.pc + BitVec.ofNat s.geom.xlen 4 } } ∧
      (∀ x < s.arch.vtype.vlmax,
        (elementClass s.arch.vstart s.arch.vl (s.arch.maskEnabled vm x) x = .active →
          maskElemRead v' vd.toNat s.arch.vtype.mlen x =
            (BitVec.ofNat 1 (s.arch.elemResult s.params.zfinx ⟨c, f⟩ d vs2 f19 vd 1 x)).setWidth _) ∧
        (elementClass s.arch.vstart s.arch.vl (s.arch.maskEnabled vm x) x = .tail → d.zeroesTail = true →
          maskElemRead v' vd.toNat s.arch.vtype.mlen x = 0) ∧
        (elementClass s.arch.vstart s.arch.vl (s.arch.maskEnabled vm x) x = .tail → d.zeroesTail = false →
          maskElemRead v' vd.toNat s.arch.vtype.mlen x = maskElemRead s.arch.v vd.toNat s.arch.vtype.mlen x) ∧
        (elementClass s.arch.vstart s.arch.vl (s.arch.maskEnabled vm x) x = .prestart ∨
            elementClass s.arch.vstart s.arch.vl (s.arch.maskEnabled vm x) x = .inactive →
          maskElemRead v' vd.toNat s.arch.vtype.mlen x = maskElemRead s.arch.v vd.toNat s.arch.vtype.mlen x)) ∧
      ∀ n, n ≠ vd.toNat → readV v' n = readV s.arch.v n

/-- R161 (log 33: the value is free, the model's choice of what it may depend on): with a scalar in element 0 of a vector register as the
destination, an instruction of any of the seven categories completes: bits `[SEW-1:0]` of `v[vd]` are the free value, of the mask and the
operands of the elements from `vstart` up to `vl` and the old element 0, all read before (log 21); whatever the
class of element 0 by its index (R180, R182, R183: the model's choice, log 33); every other bit of
every vector register is unchanged (R190: no tail is zeroed), and of the rest only `vstart` and `pc` change (logs 12, 17). Any register
may be `vd` (log 19). -/
def Obligations.ScalarResultIsWrittenToElementZero : Prop :=
  ∀ (s : State) (c : Category) (f : BitVec 6) (vm : Bool) (vs2 f19 vd : RegNum) (d : Descriptor),
    Executes s ⟨c, f⟩ d vm vs2 f19 vd → d.dest = .scalar0 →
    ∃ v' : VRegs s.geom,
      exec (.arith c f vm vs2 f19 vd) s =
        .next { s with arch := { s.arch with v := v', vstart := 0, pc := s.arch.pc + BitVec.ofNat s.geom.xlen 4 } } ∧
      (readV v' vd.toNat).extractLsb' 0 s.arch.vtype.sew =
        BitVec.ofNat _ (Config.scalarFn ⟨c, f⟩ s.arch.vtype.sew s.arch.vstart
          ((List.range (s.arch.vl - s.arch.vstart)).map fun j => ⟨s.arch.maskEnabled vm (s.arch.vstart + j),
            s.arch.source2 d.src2 vs2 (s.arch.vstart + j), s.arch.source1 s.params.zfinx d.src1 f19 (s.arch.vstart + j)⟩)
          ((readV s.arch.v vd.toNat).extractLsb' 0 s.arch.vtype.sew).toNat) ∧
      (∀ j, s.arch.vtype.sew ≤ j → (readV v' vd.toNat).getLsbD j = (readV s.arch.v vd.toNat).getLsbD j) ∧
      ∀ n, n ≠ vd.toNat → readV v' n = readV s.arch.v n

/-- R200 step 4 with R81, R118, R150, R162, R216, R217: what an operand kind is, read from the field `n`. An element of a group of width
multiplier `2^k` (R164); the predicate bit of a mask element; element 0; the five bits of `simm5` as a two's-complement number extended to
SEW bits (log 29); `x[n]`, with `x0` zero (log 10); `f[n]`, with `zfinx` `x[n]` (log 11). The first source comes from bits 19:15, the
second from bits 24:20, the old destination element from bits 11:7; of an element wider than a register the bits from VLEN up are the free
value of log 24; where the element function is not in the source its value is the free
value of log 4 on exactly these. -/
def Obligations.OperandsAndResultOfAnElement : Prop :=
  ∀ (g : Geometry) (a : Arch g) (n : RegNum) (x k : Nat),
    let width := 2 ^ k * a.vtype.sew
    let group := some ((elemRead a.v n.toNat width (2 ^ k * a.vtype.lmul.toNat) x).toNat +
      if width ≤ g.vlen then 0 else 2 ^ g.vlen * (Config.absentBits a.v a.pc.toNat n.toNat width x % 2 ^ (width - g.vlen)))
    let mask := some ((readV a.v n.toNat).getLsbD (a.vtype.mlen * x)).toNat
    let scalar := some ((readV a.v n.toNat).extractLsb' 0 a.vtype.sew).toNat
    let integer := some (if n = 0 then 0 else (a.x.getD (n.toNat - 1) 0).toNat)
    (a.source2 (.vgroup k) n x = group ∧ a.source2 .mask n x = mask ∧ a.source2 .scalar0 n x = scalar ∧ a.source2 .none n x = none) ∧
    (∀ zfinx, a.source1 zfinx (.vgroup k) n x = group ∧ a.source1 zfinx .mask n x = mask ∧ a.source1 zfinx .scalar0 n x = scalar ∧
      a.source1 zfinx .simm5 n x = some (if n.toNat < 16 then n.toNat else n.toNat + 2 ^ a.vtype.sew - 32) ∧
      a.source1 zfinx .xreg n x = integer ∧ a.source1 zfinx .none n x = none) ∧
    (a.source1 true .freg n x = integer ∧ a.source1 false .freg n x = some (a.f.getD n.toNat 0).toNat) ∧
    (some (a.destElem (.vgroup k) n x) = group ∧ some (a.destElem .mask n x) = mask ∧ some (a.destElem .scalar0 n x) = scalar) ∧
    ∀ (zfinx : Bool) (slot : Slot) (d : Descriptor) (vs2 f19 f11 : RegNum) (w : Nat), d.fn = .notInSource →
      a.elemResult zfinx slot d vs2 f19 f11 w x =
        Config.elementFn slot a.vtype.sew w x (a.source2 d.src2 vs2 x) (a.source1 zfinx d.src1 f19 x)
          (if d.readsDest then some (a.destElem d.dest f11 x) else none)

/-- R75, R160, R161, R212 to R218: a descriptor that counts for a slot names only what the fields of its category can name; and one that does,
its element function not in the source, counts (log 3). -/
def Obligations.CategoryFixesOperandKinds : Prop :=
  (∀ (table : List (Slot × Descriptor)) (c : Category) (f : BitVec 6) (d : Descriptor),
    descFor table ⟨c, f⟩ = some d → FieldsName c d) ∧
  ∀ (rest : List (Slot × Descriptor)) (c : Category) (f : BitVec 6) (d : Descriptor),
    d.fn = .notInSource → FieldsName c d → descFor ((⟨c, f⟩, d) :: rest) ⟨c, f⟩ = some d

/-- R17, R25, R26 (log 11): `f[i] <- w` changes the register read as `f[i]` alone, to `w` modulo 2 to the power of its width; with `zfinx` that register is
`x[i]`, and a write of `x0` is ignored (log 10); no other part of the registers changes. -/
def Obligations.FloatRegisterWriteAndRead : Prop :=
  ∀ (g : Geometry) (a : Arch g) (zfinx : Bool) (i j : RegNum) (w : Nat),
    let b := a.writeScalarF zfinx i w
    b.scalarF zfinx j =
      (if j = i then (if zfinx = true then (if i = 0 then 0 else w % 2 ^ g.xlen) else w % 2 ^ g.flen) else a.scalarF zfinx j) ∧
    (zfinx = true → b = { a with x := b.x }) ∧ (zfinx = false → b = { a with f := b.f })

/-- R180, R182: a prestart element (`x < vstart`) and an inactive one (`vstart ≤ x < vl`, mask bit 0) of the destination group are
unchanged, and neither stops the instruction. -/
def Obligations.PrestartAndInactiveElementsKeepTheirValue : Prop :=
  ∀ (s : State) (c : Category) (f : BitVec 6) (vm : Bool) (vs2 f19 vd : RegNum) (d : Descriptor) (k : Nat),
    Executes s ⟨c, f⟩ d vm vs2 f19 vd → d.dest = .vgroup k →
    ∃ a : Arch s.geom, exec (.arith c f vm vs2 f19 vd) s = .next { s with arch := a } ∧
      ∀ x < s.arch.vtype.vlmax, x < s.arch.vstart ∨ (s.arch.vstart ≤ x ∧ x < s.arch.vl ∧ s.arch.maskEnabled vm x = false) →
        elemRead a.v vd.toNat (s.arch.vtype.widened k) (s.arch.vtype.groupSize k) x =
          elemRead s.arch.v vd.toNat (s.arch.vtype.widened k) (s.arch.vtype.groupSize k) x

/-- R183, R186: after a regular instruction with a vector destination group, every element `x` with `vl ≤ x < VLMAX` is zero, and no tail
element stops it. -/
def Obligations.TailElementsAreZeroed : Prop :=
  ∀ (s : State) (c : Category) (f : BitVec 6) (vm : Bool) (vs2 f19 vd : RegNum) (d : Descriptor) (k : Nat),
    Executes s ⟨c, f⟩ d vm vs2 f19 vd → d.dest = .vgroup k → d.zeroesTail = true →
    ∃ a : Arch s.geom, exec (.arith c f vm vs2 f19 vd) s = .next { s with arch := a } ∧
      ∀ x, s.arch.vl ≤ x → x < s.arch.vtype.vlmax →
        elemRead a.v vd.toNat (s.arch.vtype.widened k) (s.arch.vtype.groupSize k) x = 0

/-- R147: a mask-writing instruction leaves no bit of the destination register above bit `MLEN*vl - 1` non-zero; and no mask element at
or beyond `vl` is consulted, the element's class being tail whatever the bit. -/
def Obligations.MaskBitsPastVectorLengthAreZero : Prop :=
  ∀ (s : State) (c : Category) (f : BitVec 6) (vm : Bool) (vs2 f19 vd : RegNum) (d : Descriptor),
    Executes s ⟨c, f⟩ d vm vs2 f19 vd → d.dest = .mask → d.zeroesTail = true →
    ∃ a : Arch s.geom, exec (.arith c f vm vs2 f19 vd) s = .next { s with arch := a } ∧
      (∀ j, s.arch.vtype.mlen * s.arch.vl ≤ j → (readV a.v vd.toNat).getLsbD j = false) ∧
      ∀ x b, s.arch.vl ≤ x → elementClass s.arch.vstart s.arch.vl b x = .tail

/-- R122: software that keeps to one LMUL gets the same elements whatever the striping. Two machines that differ in SLEN alone among
what the instruction reads both complete it, and their destination elements are equal (of an element wider than a register the VLEN bits
that a register holds; the others are free: log 24). -/
def Obligations.ResultElementsDoNotDependOnStriping : Prop :=
  ∀ (s t : State) (c : Category) (f : BitVec 6) (vm : Bool) (vs2 f19 f11 : RegNum) (d : Descriptor),
    Executes s ⟨c, f⟩ d vm vs2 f19 f11 → d.dest ≠ .scalar → SameButStriping s t d vs2 f19 f11 →
    ∃ (a : Arch s.geom) (b : Arch t.geom),
      exec (.arith c f vm vs2 f19 f11) s = .next { s with arch := a } ∧
      exec (.arith c f vm vs2 f19 f11) t = .next { t with arch := b } ∧
      ∀ x < s.arch.vtype.vlmax, b.destElem d.dest f11 x % 2 ^ s.geom.vlen = a.destElem d.dest f11 x % 2 ^ s.geom.vlen

/-- R26: with `zfinx` every `f[i]` means `x[i]` (D23, log 11), so no arithmetic instruction depends on the `f` registers: one that
completes does so with the same effect whatever they hold, and leaves them, and a fault or a refusal is the same. -/
def Obligations.ZfinxNeverReadsFloatRegisters : Prop :=
  ∀ (s : State) (c : Category) (f : BitVec 6) (vm : Bool) (vs2 f19 f11 : RegNum) (fregs : Vector (BitVec s.geom.flen) 32),
    s.params.zfinx = true →
    let i := Instr.arith c f vm vs2 f19 f11
    let s' : State := { s with arch := { s.arch with f := fregs } }
    (∀ a : Arch s.geom, exec i s = .next { s with arch := a } → exec i s' = .next { s with arch := { a with f := fregs } }) ∧
    (∀ e, exec i s = .fault e → exec i s' = .fault e) ∧
    ∀ r, exec i s = .refused r → exec i s' = .refused r

/-- R162 (D18, log 19): a scalar in element 0 may be named by any vector register, under every LMUL, and is element 0 there. -/
def Obligations.ElementZeroScalarInAnyRegister : Prop :=
  ∀ (g : Geometry) (a : Arch g) (n : RegNum) (vm isDest : Bool) (l : Lmul),
    operandOk vm l.toNat ⟨n.toNat, .scalar0, isDest⟩ = true ∧
      a.scalar0 n = (elemRead a.v n.toNat a.vtype.sew l.toNat 0).toNat

/-! ### OP-V arithmetic: the illegal instruction exception and the refusals -/

/-- R163: a vector operand or result named by a register that is not the lowest of its group raises the illegal instruction
exception; with LMUL=1 the check never objects. The exception is the terminal fault of R237 (D15, log 8). -/
def Obligations.RegisterNotLowestOfItsGroupIsIllegal : Prop :=
  (∀ (s : State) (c : Category) (f : BitVec 6) (vm : Bool) (vs2 f19 f11 : RegNum) (d : Descriptor) (n : Nat) (isDest : Bool),
    descFor s.params.desc ⟨c, f⟩ = some d → s.arch.vstart ≤ s.arch.vl → s.arch.vl ≤ s.arch.vtype.vlmax →
    ⟨n, .group 0, isDest⟩ ∈ vectorOperands d vs2 f19 f11 → n % s.arch.vtype.lmul.toNat ≠ 0 →
    exec (.arith c f vm vs2 f19 f11) s =
      .fault (.illegalInstruction (encode (.arith c f vm vs2 f19 f11)) s.arch.pc.toNat s.params.causeIllegalInstruction)) ∧
  ∀ (vm isDest : Bool) (n : Nat), operandOk vm 1 ⟨n, .group 0, isDest⟩ = true

/-- R164: an operand of width multiplier `2^k` whose group would exceed 8 registers raises the illegal instruction exception, and so
does one that does not start at a multiple of its own size (D19, log 20). -/
def Obligations.WidenedGroupTooLargeOrMisalignedIsIllegal : Prop :=
  ∀ (s : State) (c : Category) (f : BitVec 6) (vm : Bool) (vs2 f19 f11 : RegNum) (d : Descriptor) (n k : Nat) (isDest : Bool),
    descFor s.params.desc ⟨c, f⟩ = some d → s.arch.vstart ≤ s.arch.vl → s.arch.vl ≤ s.arch.vtype.vlmax →
    ⟨n, .group k, isDest⟩ ∈ vectorOperands d vs2 f19 f11 →
    8 < 2 ^ k * s.arch.vtype.lmul.toNat ∨ n % (2 ^ k * s.arch.vtype.lmul.toNat) ≠ 0 →
    exec (.arith c f vm vs2 f19 f11) s =
      .fault (.illegalInstruction (encode (.arith c f vm vs2 f19 f11)) s.arch.pc.toNat s.params.causeIllegalInstruction)

/-- R167, the missing object of the source's sentence read as `v0` (the spec's reading C10, log 31): a masked instruction whose destination
register group, or mask register (D20, log 20), is at `v0` raises the illegal instruction exception when LMUL > 1. With LMUL=1 the check
does not object to a destination at `v0`, nor does it when unmasked, for a mask and for any group of at most 8 registers. -/
def Obligations.MaskedDestinationOverMaskRegisterIsIllegal : Prop :=
  (∀ (s : State) (c : Category) (f : BitVec 6) (vs2 f19 : RegNum) (d : Descriptor),
    descFor s.params.desc ⟨c, f⟩ = some d → s.arch.vstart ≤ s.arch.vl → s.arch.vl ≤ s.arch.vtype.vlmax →
    (∃ k, d.dest = .vgroup k) ∨ d.dest = .mask → 1 < s.arch.vtype.lmul.toNat →
    exec (.arith c f false vs2 f19 0) s =
      .fault (.illegalInstruction (encode (.arith c f false vs2 f19 0)) s.arch.pc.toNat s.params.causeIllegalInstruction)) ∧
  (∀ k ≤ 3, operandOk false 1 ⟨0, .group k, true⟩ = true) ∧ operandOk false 1 ⟨0, .mask, true⟩ = true ∧
  ∀ l : Lmul, operandOk true l.toNat ⟨0, .mask, true⟩ = true ∧
    ∀ k, 2 ^ k * l.toNat ≤ 8 → operandOk true l.toNat ⟨0, .group k, true⟩ = true

/-- R170, R230: for a slot with a descriptor and a consistent element range, the illegal instruction exception is raised exactly when some
vector register operand that is no scalar in element 0 (D18, log 19), of `G` registers (`2^k * LMUL`, one for a mask), has `G > 8`, or a
number that is no multiple of `G` (D19, log 20), or is the destination with `vm` = 0, LMUL > 1 and number 0 (C10, D20: logs 31, 20). The
second clause says which operands those are: the destination in bits 11:7, the sources in bits 24:20 and 19:15. -/
def Obligations.IllegalExactlyWhenOperandChecksFail : Prop :=
  (∀ (s : State) (c : Category) (f : BitVec 6) (vm : Bool) (vs2 f19 f11 : RegNum) (d : Descriptor),
    descFor s.params.desc ⟨c, f⟩ = some d → s.arch.vstart ≤ s.arch.vl → s.arch.vl ≤ s.arch.vtype.vlmax →
    ((∃ o ∈ vectorOperands d vs2 f19 f11, ∃ G,
        ((∃ k, o.kind = .group k ∧ G = 2 ^ k * s.arch.vtype.lmul.toNat) ∨ (o.kind = .mask ∧ G = 1)) ∧
        (8 < G ∨ o.n % G ≠ 0 ∨ (o.isDest = true ∧ vm = false ∧ 1 < s.arch.vtype.lmul.toNat ∧ o.n = 0))) ↔
      exec (.arith c f vm vs2 f19 f11) s =
        .fault (.illegalInstruction (encode (.arith c f vm vs2 f19 f11)) s.arch.pc.toNat s.params.causeIllegalInstruction))) ∧
  ∀ (d : Descriptor) (vs2 f19 f11 : RegNum) (o : Operand), o ∈ vectorOperands d vs2 f19 f11 ↔
    ((∃ k, d.dest = .vgroup k ∧ o = ⟨f11.toNat, .group k, true⟩) ∨ (d.dest = .mask ∧ o = ⟨f11.toNat, .mask, true⟩) ∨
      (d.dest = .scalar0 ∧ o = ⟨f11.toNat, .scalar0, true⟩)) ∨
    ((∃ k, d.src2 = .vgroup k ∧ o = ⟨vs2.toNat, .group k, false⟩) ∨ (d.src2 = .mask ∧ o = ⟨vs2.toNat, .mask, false⟩) ∨
      (d.src2 = .scalar0 ∧ o = ⟨vs2.toNat, .scalar0, false⟩)) ∨
    ((∃ k, d.src1 = .vgroup k ∧ o = ⟨f19.toNat, .group k, false⟩) ∨ (d.src1 = .mask ∧ o = ⟨f19.toNat, .mask, false⟩) ∨
      (d.src1 = .scalar0 ∧ o = ⟨f19.toNat, .scalar0, false⟩))

/-- R230: no instruction stops with any other fault, and only an arithmetic one with a failed operand check faults at all. That nothing else
faults is the model's: the element function raises nothing (D27, R232: log 30), and the loads, stores and AMOs, which could raise in the
hardware, are refused (D10: log 26). -/
def Obligations.OnlyFailedOperandChecksFault : Prop :=
  ∀ (i : Instr) (s : State) (e : Fault), exec i s = .fault e →
    e = .illegalInstruction (encode i) s.arch.pc.toNat s.params.causeIllegalInstruction ∧
    ∃ c f vm vs2 f19 f11 d, i = .arith c f vm vs2 f19 f11 ∧ descFor s.params.desc ⟨c, f⟩ = some d ∧
      checkOperands vm s.arch.vtype.lmul.toNat (vectorOperands d vs2 f19 f11) = false

/-- R200 step 1: an instruction whose slot has no descriptor is refused (log 32). -/
def Obligations.SlotWithoutDescriptorIsRefused : Prop :=
  ∀ (s : State) (c : Category) (f : BitVec 6) (vm : Bool) (vs2 f19 f11 : RegNum), descFor s.params.desc ⟨c, f⟩ = none →
    exec (.arith c f vm vs2 f19 f11) s = .refused .semanticsNotInSource

/-- R189 (D11, log 16): an instruction begun with `vstart > vl` is refused. -/
def Obligations.StartBeyondVectorLengthIsRefused : Prop :=
  ∀ (s : State) (c : Category) (f : BitVec 6) (vm : Bool) (vs2 f19 f11 : RegNum) (d : Descriptor),
    descFor s.params.desc ⟨c, f⟩ = some d → s.arch.vl < s.arch.vstart →
    exec (.arith c f vm vs2 f19 f11) s = .refused .elementClassesOverlap

/-- R85(b) (D14, log 18): a masked encoding of an instruction that is not maskable is refused once its operands pass the checks. -/
def Obligations.MaskedUnmaskableIsRefused : Prop :=
  ∀ (s : State) (c : Category) (f : BitVec 6) (vs2 f19 f11 : RegNum) (d : Descriptor),
    descFor s.params.desc ⟨c, f⟩ = some d → s.arch.vstart ≤ s.arch.vl → s.arch.vl ≤ s.arch.vtype.vlmax →
    checkOperands false s.arch.vtype.lmul.toNat (vectorOperands d vs2 f19 f11) = true → d.maskable = false →
    exec (.arith c f false vs2 f19 f11) s = .refused .vmOnUnmaskable

/-- R213, R214, R218 (log 25): with a scalar register destination the template does not apply and the instruction is refused. -/
def Obligations.ScalarDestinationIsRefused : Prop :=
  ∀ (s : State) (c : Category) (f : BitVec 6) (vm : Bool) (vs2 f19 f11 : RegNum) (d : Descriptor),
    Executes s ⟨c, f⟩ d vm vs2 f19 f11 → d.dest = .scalar →
    exec (.arith c f vm vs2 f19 f11) s = .refused .scalarDestination

/-- N53, U14 (`k*SEW` is not checked, `ElemLoc` is used unconditionally) with R114, R116, R118: an instruction with destination elements of
`2^k * SEW` bits, wider than a register, completes like any other. Element `x` lies in register `vd + x`: an active one leaves the low VLEN
bits of its result there, the bits above having no place (the model's choice, log 24), a tail one zero if the tail is zeroed; every other
register is unchanged. A source element that wide has the VLEN bits of its register as its low bits. (Logs 4, 12, 17, 21, 22.) -/
def Obligations.WideElementsCompleteInWholeRegisters : Prop :=
  (∀ (s : State) (c : Category) (f : BitVec 6) (vm : Bool) (vs2 f19 vd : RegNum) (d : Descriptor) (k : Nat),
    Executes s ⟨c, f⟩ d vm vs2 f19 vd → d.dest = .vgroup k → s.geom.vlen < s.arch.vtype.widened k →
    ∃ v' : VRegs s.geom,
      exec (.arith c f vm vs2 f19 vd) s =
        .next { s with arch := { s.arch with v := v', vstart := 0, pc := s.arch.pc + BitVec.ofNat s.geom.xlen 4 } } ∧
      (∀ x < s.arch.vtype.vlmax,
        let cl := elementClass s.arch.vstart s.arch.vl (s.arch.maskEnabled vm x) x
        (cl = .active → readV v' (vd.toNat + x) =
          BitVec.ofNat _ (s.arch.elemResult s.params.zfinx ⟨c, f⟩ d vs2 f19 vd (s.arch.vtype.widened k) x)) ∧
        (cl = .tail → d.zeroesTail = true → readV v' (vd.toNat + x) = 0) ∧
        (cl = .prestart ∨ cl = .inactive ∨ (cl = .tail ∧ d.zeroesTail = false) →
          readV v' (vd.toNat + x) = readV s.arch.v (vd.toNat + x))) ∧
      ∀ n, n < vd.toNat ∨ vd.toNat + s.arch.vtype.vlmax ≤ n → readV v' n = readV s.arch.v n) ∧
  ∀ (g : Geometry) (a : Arch g) (n : RegNum) (k x : Nat), g.vlen < a.vtype.widened k → x < a.vtype.vlmax →
    a.groupElem n k x % 2 ^ g.vlen = (readV a.v (n.toNat + x)).toNat

/-- R50, R203, R207, R211 (D10, log 26): the vector loads, stores and AMOs are refused in every state, whatever their fields. -/
def Obligations.MemoryInstructionsAreRefused : Prop :=
  ∀ s : State,
    (∀ nf mop vm f24 rs1 width vd, exec (.vload nf mop vm f24 rs1 width vd) s = .refused .memorySemanticsNotInSource) ∧
    (∀ nf mop vm f24 rs1 width vs3, exec (.vstore nf mop vm f24 rs1 width vs3) s = .refused .memorySemanticsNotInSource) ∧
    ∀ amoop wd vm vs2 rs1 width vs3Vd, exec (.vamo amoop wd vm vs2 rs1 width vs3Vd) s = .refused .memorySemanticsNotInSource

/-! ### Vector configuration -/

/-- R201, R202 with `VsetEffect` open (D21; the free value of log 5): `vsetvli` and `vsetvl` complete in every state. The new `vtype`, `vl` and
value for `x[rd]` are those of the free value on the state, the AVL source `rs1` and the new setting (`zimm`, or `x[rs2]`), fitted to the
parameter's domain: `vl` is at most the new VLMAX, and an answer that is legal is taken as it is. `x[rd]` alone of the `x` registers is
written (`x0` never: D4, log 10), `vstart` is cleared and `pc` advanced (logs 17, 12); nothing else changes. -/
def Obligations.OpenConfigurationCompletes : Prop :=
  ∀ (s : State) (i : Instr) (rs1 rd : RegNum) (setting : Nat), s.params.vsetEffect = .open_ → Configures s i rs1 rd setting →
    let raw := Config.vsetRaw s rs1.toNat setting
    let r := fitVset s.geom raw
    (∃ (x' : Vector (BitVec s.geom.xlen) 31) (a : Arch s.geom),
      exec i s = .next { s with arch := a } ∧
      a = { s.arch with x := x', vl := r.vl, vtype := r.vtype, vstart := 0, pc := s.arch.pc + BitVec.ofNat s.geom.xlen 4 } ∧
      ∀ j : RegNum, a.readX j = if j = rd ∧ j ≠ 0 then BitVec.ofNat _ r.rdValue else s.arch.readX j) ∧
    r.vl ≤ r.vtype.vlmax ∧ r.vtype.lmul = raw.lmul ∧ r.rdValue = raw.rdValue ∧
    (raw.sewLog ≤ s.geom.elenLog → r.vtype.sew = 8 * 2 ^ raw.sewLog) ∧ (raw.vl ≤ r.vtype.vlmax → r.vl = raw.vl)

/-- R201, R202 with the 0.7.x instantiation of `VsetEffect` (G5, general knowledge: PRESUMED, log 5): a setting, `zimm` or `x[rs2]`, whose SEW
is at most ELEN and whose bits above bit 4 are zero gives that SEW and LMUL and `vl = min(AVL, VLMAX)`, where AVL is `x[rs1]`, or the
largest number for `x0`; `x[rd]` receives `vl`. -/
def Obligations.Draft07ConfigurationResult : Prop :=
  ∀ (s : State) (i : Instr) (rs1 rd : RegNum) (setting : Nat), s.params.vsetEffect = .draft07 → Configures s i rs1 rd setting →
    8 * 2 ^ (setting / 4 % 8) ≤ s.geom.elen → setting < 32 →
    ∃ (t : VType s.geom) (a : Arch s.geom),
      exec i s = .next { s with arch := a } ∧
      t.sew = 8 * 2 ^ (setting / 4 % 8) ∧ t.lmul.toNat = 2 ^ (setting % 4) ∧
      a.vtype = t ∧ a.vl = min (if rs1 = 0 then 2 ^ s.geom.xlen - 1 else (s.arch.readX rs1).toNat) t.vlmax ∧
      (∀ j : RegNum, a.readX j = if j = rd ∧ j ≠ 0 then BitVec.ofNat s.geom.xlen a.vl else s.arch.readX j) ∧
      a.v = s.arch.v ∧ a.f = s.arch.f ∧ a.vstart = 0 ∧ a.pc = s.arch.pc + BitVec.ofNat s.geom.xlen 4

/-- G5 (PRESUMED, log 5): under the 0.7.x `VsetEffect` a setting, `zimm` of `vsetvli` or `x[rs2]` of `vsetvl`, with SEW above ELEN or a bit
above bit 4 set is refused. -/
def Obligations.Draft07RefusesUnrepresentableSetting : Prop :=
  ∀ (s : State) (i : Instr) (rs1 rd : RegNum) (setting : Nat), s.params.vsetEffect = .draft07 → Configures s i rs1 rd setting →
    s.geom.elen < 8 * 2 ^ (setting / 4 % 8) ∨ 32 ≤ setting →
    exec i s = .refused .settingNotRepresentable

/-- R22: changing SEW or LMUL (writing `vtype`) changes no bit of any vector register: whatever `VsetEffect` is. -/
def Obligations.ConfigurationChangesNoVectorRegister : Prop :=
  ∀ (s t : State) (i : Instr),
    (∃ zimm rs1 rd, i = .vsetvli zimm rs1 rd) ∨ (∃ rs2 rs1 rd, i = .vsetvl rs2 rs1 rd) → exec i s = .next t →
    ∃ a : Arch s.geom, t = { s with arch := a } ∧ ∀ n j, (readV a.v n).getLsbD j = (readV s.arch.v n).getLsbD j

/-- R202: `vsetvl` acts as `vsetvli` does, with the setting taken from `x[rs2]`. -/
def Obligations.RegisterAndImmediateSettingsAgree : Prop :=
  ∀ (s : State) (zimm : BitVec 11) (rs2 rs1 rd : RegNum), (s.arch.readX rs2).toNat = zimm.toNat →
    exec (.vsetvl rs2 rs1 rd) s = exec (.vsetvli zimm rs1 rd) s

/-! ### The step, the run and the invariant -/

/-- R244, R89: when the next word of the program, whose address is `pc`, decodes to an instruction, the step is that instruction's
execution in that state; a completed one is counted as executed, a fault or a refusal is the step's. -/
def Obligations.StepRunsDecodedInstruction : Prop :=
  ∀ (s : State) (w : Word) (i : Instr), s.fetch = some w → decode s.params.vectorWidths w = .instr i →
    (∀ t, exec i s = .next t → step s = .next { t with executed := s.executed + 1 }) ∧
    (∀ e, exec i s = .fault e → step s = .fault e) ∧
    ∀ r, exec i s = .refused r → step s = .refused r

/-- R244, R54 (D9, log 13): where the program text lies in memory, the word a step executes is the one read from memory at `pc`, the byte
at the lowest address least significant. -/
def Obligations.FetchedWordIsInMemoryAtPc : Prop :=
  ∀ (s : State) (w : Word), TextPlaced s → s.fetch = some w → s.mem.read s.geom.xlen s.arch.pc.toNat 4 = some w.toNat

/-- R244, R85(a), R89: how a step stops without executing an instruction: the end of the program, the illegal configuration word, a word
outside the formats (logs 8, 13, 27). -/
def Obligations.StepStopsWithoutAnInstruction : Prop :=
  ∀ s : State,
    (s.fetch = none → step s = .fault (.endOfProgram s.arch.pc.toNat)) ∧
    ∀ w, s.fetch = some w →
      (decode s.params.vectorWidths w = .illegal →
        step s = .fault (.illegalInstruction w s.arch.pc.toNat s.params.causeIllegalInstruction)) ∧
      (decode s.params.vectorWidths w = .notInThisSpec → step s = .refused .notInThisSpec)

/-- R231, R237: the illegal instruction exception carries the 32-bit word that was fetched, the `pc` it was fetched from, and the cause
parameter. -/
def Obligations.IllegalInstructionCarriesFetchedWord : Prop :=
  ∀ (s : State) (w : Word) (pc cause : Nat), step s = .fault (.illegalInstruction w pc cause) →
    s.fetch = some w ∧ pc = s.arch.pc.toNat ∧ cause = s.params.causeIllegalInstruction

/-- R31, R63, R35, R200 step 6 (D8, D12: logs 12, 17): a completed step leaves the parameters, memory, the program text and the
`f` registers alone, clears `vstart`, advances `pc` by 4 modulo `2^XLEN` and is one word further in the list. -/
def Obligations.CompletedStepAdvancesAndKeepsTheRest : Prop :=
  ∀ s t : State, step s = .next t → CompletesFrom s t

/-- R34, D7 (log 23): from every state that meets the invariant, a completed step gives one that meets it; and where the words still to be
executed lie in memory from `pc` on, they do so after the step (R63, R244, D8: logs 12, 14). -/
def Obligations.StepKeepsInvariant : Prop :=
  ∀ s t : State, step s = .next t → (StateInv s → StateInv t) ∧ (TextPlaced s → TextPlaced t)

/-- The invariants hold at reset (the reset values are the model's choice, log 9). -/
def Obligations.ResetMeetsInvariant : Prop := StateInv State.reset ∧ TextPlaced State.reset

/-- R244, R54 (D9; logs 13, 14): the words of a loaded program that fits in the address space lie at consecutive addresses from the initial
`pc`, modulo `2^XLEN`: byte `j` of word `k` is at `pc + 4k + j` and is bits `8j+7:8j` of the word. So the program text lies in memory, and
the word at `pc + 4k` is the one executed there. -/
def Obligations.LoadedProgramIsFetchedInOrder : Prop :=
  ∀ (s : State) (words : List Word), 4 * words.length ≤ 2 ^ s.geom.xlen →
    TextPlaced (s.loadProgram words) ∧
    ∀ (k : Nat) (h : k < words.length),
      State.fetch { s.loadProgram words with
        arch := { s.arch with pc := s.arch.pc + BitVec.ofNat _ (4 * k) }, executed := k } = some words[k] ∧
      (s.loadProgram words).mem.read s.geom.xlen ((s.arch.pc.toNat + 4 * k) % 2 ^ s.geom.xlen) 4 = some words[k].toNat ∧
      ∀ j < 4, (s.loadProgram words).mem.readByte ((s.arch.pc.toNat + 4 * k + j) % 2 ^ s.geom.xlen) =
        some (words[k].extractLsb' (8 * j) 8)

/-- R244 (D28, D8: logs 12, 14): a run from a loaded program, of any length, executes the words of its list in order, each once, word `n` at
`pc + 4n` modulo `2^XLEN`, and ends when the list is exhausted: after `n` completed steps the next word is word `n` of the list, and the
state is final exactly when `n` is the length of the list. -/
def Obligations.RunExecutesItsListOnceAndEnds : Prop :=
  ∀ (s t : State) (words : List Word) (n : Nat), StepsTo n (s.loadProgram words) t →
    n ≤ words.length ∧ t.fetch = words[n]? ∧ (Final t ↔ n = words.length) ∧
      (Final t → step t = .fault (.endOfProgram t.arch.pc.toNat)) ∧
      t.arch.pc.toNat = (s.arch.pc.toNat + 4 * n) % 2 ^ s.geom.xlen

/-- Loading a program keeps the invariant (log 13). -/
def Obligations.LoadingKeepsInvariant : Prop :=
  ∀ (s : State) (words : List Word), StateInv s → StateInv (s.loadProgram words)

/-- Loading a one-word program gives its slot a descriptor, so that an OP-V arithmetic word is never refused for want of one (log 14: the
model's choice). -/
def Obligations.LoadedWordHasDescriptor : Prop :=
  ∀ (s : State) (c : Category) (f : BitVec 6) (vm : Bool) (vs2 f19 f11 : RegNum),
    ∃ d, descFor (s.withFetchWord 32 (encode (.arith c f vm vs2 f19 f11)).toNat).params.desc ⟨c, f⟩ = some d
end

