-- ==== Sys2Proof/Laws/State.lean ====
section
/-! SUPPORT. What each named update of the registers leaves alone and does, field by field. -/

namespace Sys2Proof.Laws

open Config Machine

variable {g : Geometry} (a : Arch g) (i : RegNum) (w : BitVec g.xlen)

@[simp] theorem complete_x : a.complete.x = a.x := rfl
@[simp] theorem complete_f : a.complete.f = a.f := rfl
@[simp] theorem complete_v : a.complete.v = a.v := rfl
@[simp] theorem complete_vl : a.complete.vl = a.vl := rfl
@[simp] theorem complete_vtype : a.complete.vtype = a.vtype := rfl
@[simp] theorem complete_vstart : a.complete.vstart = 0 := rfl
@[simp] theorem complete_pc : a.complete.pc = a.pc + BitVec.ofNat g.xlen 4 := rfl

@[simp] theorem writeX_f : (a.writeX i w).f = a.f := by unfold Arch.writeX; split <;> rfl
@[simp] theorem writeX_v : (a.writeX i w).v = a.v := by unfold Arch.writeX; split <;> rfl
@[simp] theorem writeX_vl : (a.writeX i w).vl = a.vl := by unfold Arch.writeX; split <;> rfl
@[simp] theorem writeX_vtype : (a.writeX i w).vtype = a.vtype := by unfold Arch.writeX; split <;> rfl
@[simp] theorem writeX_vstart : (a.writeX i w).vstart = a.vstart := by unfold Arch.writeX; split <;> rfl
@[simp] theorem writeX_pc : (a.writeX i w).pc = a.pc := by unfold Arch.writeX; split <;> rfl

@[simp] theorem writeF_x (u : BitVec g.flen) : (a.writeF i u).x = a.x := rfl
@[simp] theorem writeF_v (u : BitVec g.flen) : (a.writeF i u).v = a.v := rfl
@[simp] theorem writeF_vl (u : BitVec g.flen) : (a.writeF i u).vl = a.vl := rfl
@[simp] theorem writeF_vtype (u : BitVec g.flen) : (a.writeF i u).vtype = a.vtype := rfl
@[simp] theorem writeF_vstart (u : BitVec g.flen) : (a.writeF i u).vstart = a.vstart := rfl
@[simp] theorem writeF_pc (u : BitVec g.flen) : (a.writeF i u).pc = a.pc := rfl
@[simp] theorem readX_writeF (u : BitVec g.flen) (j : RegNum) : (a.writeF i u).readX j = a.readX j := rfl

/-- What reading any `f` register gives after a write (R17, R25). -/
theorem readF_writeF (u : BitVec g.flen) (j : RegNum) : (a.writeF i u).readF j = if j = i then u else a.readF j := by
  have hj : j.toNat < 32 := j.isLt
  unfold Arch.readF Arch.writeF
  by_cases h : j = i
  · subst h
    simp [Vector.getD, hj]
  · have hne : i.toNat ≠ j.toNat := fun e => h (BitVec.eq_of_toNat_eq e.symm)
    simp [Vector.getD, hj, h, hne]

@[simp] theorem countExecuted_next (s t : State) : s.countExecuted (.next t) = .next { t with executed := s.executed + 1 } := rfl
@[simp] theorem countExecuted_fault (s : State) (e : Fault) : s.countExecuted (.fault e) = .fault e := rfl
@[simp] theorem countExecuted_refused (s : State) (r : Refusal) : s.countExecuted (.refused r) = .refused r := rfl

@[simp] theorem readX_complete (j : RegNum) : a.complete.readX j = a.readX j := rfl
@[simp] theorem readX_zero : a.readX 0 = 0 := rfl

/-- A write of `x0` is ignored (R24, D4). -/
@[simp] theorem writeX_zero : a.writeX 0 w = a := rfl

theorem regNum_ne_zero {i : RegNum} (h : i ≠ 0) : i.toNat - 1 < 31 ∧ 0 < i.toNat := by
  have h0 : i.toNat ≠ 0 := fun e => h (BitVec.eq_of_toNat_eq (by simpa using e))
  have := i.isLt
  omega

theorem readX_writeX_same (h : i ≠ 0) : (a.writeX i w).readX i = w := by
  unfold Arch.readX Arch.writeX
  rw [if_neg h, if_neg h]
  simp [Vector.getD, regNum_ne_zero h]

theorem readX_writeX_other (j : RegNum) (h : j ≠ i) : (a.writeX i w).readX j = a.readX j := by
  unfold Arch.writeX
  split
  · rfl
  · next hi =>
    unfold Arch.readX
    split
    · rfl
    · next hj =>
      have := regNum_ne_zero hi
      have := regNum_ne_zero hj
      have hne : i.toNat - 1 ≠ j.toNat - 1 := by
        have : i.toNat ≠ j.toNat := fun e => h (BitVec.eq_of_toNat_eq e.symm)
        omega
      simp [Vector.getD, this, hne]

/-- What reading any `x` register gives after a write (R24, D4). -/
theorem readX_writeX (j : RegNum) : (a.writeX i w).readX j = if j = i ∧ j ≠ 0 then w else a.readX j := by
  split
  · next h =>
    obtain ⟨rfl, hj⟩ := h
    exact readX_writeX_same a j w hj
  · next h =>
    by_cases hji : j = i
    · subst hji
      have : j = 0 := by
        by_contra hj
        exact h ⟨rfl, hj⟩
      subst this
      rfl
    · exact readX_writeX_other a i w j hji

end Sys2Proof.Laws
end

