-- ==== Sys2Proof/Laws/Configuration.lean ====
section
/-! SUPPORT. `vsetvli` and `vsetvl`: what a completed one did (R201, R202), and that `VsetEffect` stays in its domain (D21). -/

namespace Sys2Proof.Laws

open Config Machine

/-- Every answer of `VsetEffect` has `vl` at most the new VLMAX (R34, D21). -/
theorem vsetEffect_length {s : State} {rs1 : RegNum} {setting : Nat} {r : VsetResult s.geom}
    (h : vsetEffect s rs1 setting = some r) : r.vl ≤ r.vtype.vlmax := by
  unfold vsetEffect at h
  split at h
  · obtain rfl := Option.some.inj h
    exact Nat.min_le_right _ _
  · unfold vsetEffect07 at h
    split at h
    · obtain rfl := Option.some.inj h
      exact Nat.min_le_right _ _
    · cases h

/-- The open `VsetEffect` answers for every state and setting (R201). -/
theorem vsetEffect_open {s : State} (h : s.params.vsetEffect = .open_) (rs1 : RegNum) (setting : Nat) :
    vsetEffect s rs1 setting = some (fitVset s.geom (Config.vsetRaw s rs1.toNat setting)) := by
  unfold vsetEffect
  rw [h]

/-- The 0.7.x `VsetEffect` (G5). -/
theorem vsetEffect_draft07 {s : State} (h : s.params.vsetEffect = .draft07) (rs1 : RegNum) (setting : Nat) :
    vsetEffect s rs1 setting = vsetEffect07 s.arch rs1 setting := by
  unfold vsetEffect
  rw [h]

/-- Everything a completed `vsetvli` or `vsetvl` did (R201). -/
theorem vset_next {s t : State} {rs1 rd : RegNum} {setting : Nat} (h : vset rs1 rd setting s = .next t) :
    ∃ r : VsetResult s.geom, vsetEffect s rs1 setting = some r ∧ r.vl ≤ r.vtype.vlmax ∧
      t = { s with arch :=
        (({ s.arch with vtype := r.vtype, vl := r.vl } : Arch s.geom).writeX rd (BitVec.ofNat _ r.rdValue)).complete } := by
  unfold vset at h
  split at h
  · next r hr => exact ⟨r, hr, vsetEffect_length hr, by simpa [State.finish] using h.symm⟩
  · cases h

end Sys2Proof.Laws
end

