-- ==== Sys2Proof/Laws/Decode.lean ====
section
/-! SUPPORT. The fields of a laid-out word, and what the decoder reads from one (R72 to R78, R89). -/

namespace Sys2Proof.Laws

open Config

variable (f31 : BitVec 7) (f24 f19 : BitVec 5) (f14 : BitVec 3) (f11 : BitVec 5) (op : BitVec 7)

/-- Bit `i` of a laid-out word, by field. -/
theorem getLsbD_layout (i : Nat) : (layout f31 f24 f19 f14 f11 op).getLsbD i =
    if i < 7 then op.getLsbD i else if i < 12 then f11.getLsbD (i - 7) else if i < 15 then f14.getLsbD (i - 12)
    else if i < 20 then f19.getLsbD (i - 15) else if i < 25 then f24.getLsbD (i - 20) else f31.getLsbD (i - 25) := by
  simp only [layout, BitVec.getLsbD_append, Nat.sub_sub]
  repeat' split
  all_goals first | rfl | omega

/-- A field of a laid-out word that lies inside one of its parts is read from that part. -/
theorem extract_layout {lo len : Nat} {part : BitVec len}
    (h : ∀ i < len, (layout f31 f24 f19 f14 f11 op).getLsbD (lo + i) = part.getLsbD i) :
    (layout f31 f24 f19 f14 f11 op).extractLsb' lo len = part := by
  apply BitVec.eq_of_getLsbD_eq
  intro i hi
  simp only [BitVec.getLsbD_extractLsb', hi, decide_true, Bool.true_and, h i hi]

@[simp] theorem layout_op : (layout f31 f24 f19 f14 f11 op).extractLsb' 0 7 = op :=
  extract_layout _ _ _ _ _ _ fun i hi => by
    simp (disch := omega) only [getLsbD_layout, if_pos, Nat.zero_add]

@[simp] theorem layout_f11 : (layout f31 f24 f19 f14 f11 op).extractLsb' 7 5 = f11 :=
  extract_layout _ _ _ _ _ _ fun i hi => by
    simp (disch := omega) only [getLsbD_layout, if_pos, if_neg, Nat.add_sub_cancel_left]

@[simp] theorem layout_f14 : (layout f31 f24 f19 f14 f11 op).extractLsb' 12 3 = f14 :=
  extract_layout _ _ _ _ _ _ fun i hi => by
    simp (disch := omega) only [getLsbD_layout, if_pos, if_neg, Nat.add_sub_cancel_left]

@[simp] theorem layout_f19 : (layout f31 f24 f19 f14 f11 op).extractLsb' 15 5 = f19 :=
  extract_layout _ _ _ _ _ _ fun i hi => by
    simp (disch := omega) only [getLsbD_layout, if_pos, if_neg, Nat.add_sub_cancel_left]

@[simp] theorem layout_f24 : (layout f31 f24 f19 f14 f11 op).extractLsb' 20 5 = f24 :=
  extract_layout _ _ _ _ _ _ fun i hi => by
    simp (disch := omega) only [getLsbD_layout, if_pos, if_neg, Nat.add_sub_cancel_left]

/-- A field of bits 31:25 is a field of the part laid there. -/
theorem layout_f31_field (lo len : Nat) :
    (layout f31 f24 f19 f14 f11 op).extractLsb' (25 + lo) len = f31.extractLsb' lo len :=
  extract_layout _ _ _ _ _ _ fun i hi => by
    simp (disch := omega) only [getLsbD_layout, if_neg, BitVec.getLsbD_extractLsb', hi, decide_true, Bool.true_and, Nat.add_assoc,
      Nat.add_sub_cancel_left]

theorem layout_f31_bit (i : Nat) : (layout f31 f24 f19 f14 f11 op).getLsbD (25 + i) = f31.getLsbD i := by
  simp (disch := omega) [getLsbD_layout, if_neg]

@[simp] theorem layout_bit25 : (layout f31 f24 f19 f14 f11 op).getLsbD 25 = f31.getLsbD 0 := layout_f31_bit _ _ _ _ _ _ 0
@[simp] theorem layout_bit26 : (layout f31 f24 f19 f14 f11 op).getLsbD 26 = f31.getLsbD 1 := layout_f31_bit _ _ _ _ _ _ 1
@[simp] theorem layout_bit31 : (layout f31 f24 f19 f14 f11 op).getLsbD 31 = f31.getLsbD 6 := layout_f31_bit _ _ _ _ _ _ 6
@[simp] theorem layout_25_6 : (layout f31 f24 f19 f14 f11 op).extractLsb' 25 6 = f31.extractLsb' 0 6 :=
  layout_f31_field _ _ _ _ _ _ 0 6
@[simp] theorem layout_26_6 : (layout f31 f24 f19 f14 f11 op).extractLsb' 26 6 = f31.extractLsb' 1 6 :=
  layout_f31_field _ _ _ _ _ _ 1 6
@[simp] theorem layout_26_3 : (layout f31 f24 f19 f14 f11 op).extractLsb' 26 3 = f31.extractLsb' 1 3 :=
  layout_f31_field _ _ _ _ _ _ 1 3
@[simp] theorem layout_29_3 : (layout f31 f24 f19 f14 f11 op).extractLsb' 29 3 = f31.extractLsb' 4 3 :=
  layout_f31_field _ _ _ _ _ _ 4 3
@[simp] theorem layout_27_5 : (layout f31 f24 f19 f14 f11 op).extractLsb' 27 5 = f31.extractLsb' 2 5 :=
  layout_f31_field _ _ _ _ _ _ 2 5

/-- A word is the layout of its own fields. -/
theorem layout_fields (w : Word) : layout (w.extractLsb' 25 7) (w.extractLsb' 20 5) (w.extractLsb' 15 5) (w.extractLsb' 12 3)
    (w.extractLsb' 7 5) (w.extractLsb' 0 7) = w := by
  apply BitVec.eq_of_getLsbD_eq
  intro i hi
  rw [getLsbD_layout]
  simp only [BitVec.getLsbD_extractLsb']
  repeat' split
  all_goals
    simp (disch := omega) only [decide_eq_true, Bool.true_and]
    congr 1
    omega

/-! ### Bits 31:25 of the formats (R72 to R75) -/

theorem append_bit_field {n : Nat} (a : BitVec n) (b : Bool) : (a ++ BitVec.ofBool b).extractLsb' 1 n = a := by
  apply BitVec.eq_of_getLsbD_eq
  intro i hi
  simp (disch := omega) only [BitVec.getLsbD_extractLsb', BitVec.getLsbD_append, hi, decide_true, Bool.true_and, if_neg,
    Nat.add_sub_cancel_left]

@[simp] theorem arith_funct6 (f : BitVec 6) (vm : Bool) : (f ++ BitVec.ofBool vm).extractLsb' 1 6 = f := append_bit_field f vm
@[simp] theorem arith_vm (f : BitVec 6) (vm : Bool) : (f ++ BitVec.ofBool vm).getLsbD 0 = vm := by
  cases vm <;> simp only [BitVec.getLsbD_append] <;> rfl

@[simp] theorem mem_nf (nf mop : BitVec 3) (vm : Bool) : (nf ++ mop ++ BitVec.ofBool vm).extractLsb' 4 3 = nf := by
  apply BitVec.eq_of_getLsbD_eq
  intro i hi
  simp (disch := omega) only [BitVec.getLsbD_extractLsb', BitVec.getLsbD_append, hi, decide_true, Bool.true_and, if_neg,
    show 4 + i - 1 - 3 = i by omega]
@[simp] theorem mem_mop (nf mop : BitVec 3) (vm : Bool) : (nf ++ mop ++ BitVec.ofBool vm).extractLsb' 1 3 = mop := by
  apply BitVec.eq_of_getLsbD_eq
  intro i hi
  simp (disch := omega) only [BitVec.getLsbD_extractLsb', BitVec.getLsbD_append, hi, decide_true, Bool.true_and, if_true, if_neg,
    Nat.add_sub_cancel_left]
@[simp] theorem mem_vm (nf mop : BitVec 3) (vm : Bool) : (nf ++ mop ++ BitVec.ofBool vm).getLsbD 0 = vm := by
  cases vm <;> simp only [BitVec.getLsbD_append] <;> rfl

@[simp] theorem amo_amoop (amoop : BitVec 5) (wd vm : Bool) :
    (amoop ++ BitVec.ofBool wd ++ BitVec.ofBool vm).extractLsb' 2 5 = amoop := by
  apply BitVec.eq_of_getLsbD_eq
  intro i hi
  simp (disch := omega) only [BitVec.getLsbD_extractLsb', BitVec.getLsbD_append, hi, decide_true, Bool.true_and, if_neg,
    show 2 + i - 1 - 1 = i by omega]
@[simp] theorem amo_wd (amoop : BitVec 5) (wd vm : Bool) :
    (amoop ++ BitVec.ofBool wd ++ BitVec.ofBool vm).getLsbD 1 = wd := by
  cases wd <;> simp only [BitVec.getLsbD_append] <;> rfl
@[simp] theorem amo_vm (amoop : BitVec 5) (wd vm : Bool) :
    (amoop ++ BitVec.ofBool wd ++ BitVec.ofBool vm).getLsbD 0 = vm := by
  cases vm <;> simp only [BitVec.getLsbD_append] <;> rfl

/-- Bits 31:25 of a word from its fields, for each format. -/
theorem f31_arith (w : Word) : (w.extractLsb' 26 6 ++ BitVec.ofBool (w.getLsbD 25) : BitVec 7) = w.extractLsb' 25 7 := by
  apply BitVec.eq_of_getLsbD_eq
  intro i hi
  simp only [BitVec.getLsbD_append, BitVec.getLsbD_extractLsb', BitVec.getLsbD_ofBool]
  interval_cases i <;> simp

theorem f31_mem (w : Word) :
    (w.extractLsb' 29 3 ++ w.extractLsb' 26 3 ++ BitVec.ofBool (w.getLsbD 25) : BitVec 7) = w.extractLsb' 25 7 := by
  apply BitVec.eq_of_getLsbD_eq
  intro i hi
  simp only [BitVec.getLsbD_append, BitVec.getLsbD_extractLsb', BitVec.getLsbD_ofBool]
  interval_cases i <;> simp

theorem f31_amo (w : Word) :
    (w.extractLsb' 27 5 ++ BitVec.ofBool (w.getLsbD 26) ++ BitVec.ofBool (w.getLsbD 25) : BitVec 7) = w.extractLsb' 25 7 := by
  apply BitVec.eq_of_getLsbD_eq
  intro i hi
  simp only [BitVec.getLsbD_append, BitVec.getLsbD_extractLsb', BitVec.getLsbD_ofBool]
  interval_cases i <;> simp

@[simp] theorem categoryOf_bits (c : Category) : categoryOf c.bits = some c := by cases c <;> decide

theorem categoryOf_some {b : BitVec 3} {c : Category} (h : categoryOf b = some c) : b = c.bits := by
  revert b c
  decide

end Sys2Proof.Laws
end

