-- ==== Sys2Proof/Laws/Elements.lean ====
section
/-! SUPPORT. The element mapping: its closed form over powers of two, its bounds, and that `elemAt` inverts it (R114, R117). -/

namespace Sys2Proof.Laws

open Config Machine

/-- The slot of element `i`: the register of the group and the index of the element's place in that register. -/
def slotOf (e lmul i : Nat) : Nat × Nat := (i / e % lmul, i / e / lmul * e + i % e)

theorem runLength_pow (s e : Nat) : runLength (8 * 2 ^ s) (8 * 2 ^ e) = 2 ^ (s - e) := by
  unfold runLength
  rw [Nat.mul_div_mul_left _ _ (by decide)]
  rcases Nat.le_total e s with h | h
  · rw [Nat.pow_div h (by decide)]
    exact max_eq_right Nat.one_le_two_pow
  · rcases Nat.eq_or_lt_of_le h with rfl | h'
    · simp
    · rw [Nat.div_eq_of_lt (Nat.pow_lt_pow_right (by decide) h'), Nat.sub_eq_zero_of_le h]
      rfl

theorem max_pow (s e : Nat) : max (8 * 2 ^ s) (8 * 2 ^ e) = 2 ^ (s - e) * (8 * 2 ^ e) := by
  rcases Nat.le_total e s with h | h
  · rw [max_eq_left (Nat.mul_le_mul_left 8 (Nat.pow_le_pow_right (by decide) h)), ← Nat.sub_add_cancel h, Nat.pow_add]
    simp only [Nat.add_sub_cancel]
    ring
  · rw [max_eq_right (Nat.mul_le_mul_left 8 (Nat.pow_le_pow_right (by decide) h)), Nat.sub_eq_zero_of_le h]
    simp

/-- `elemLoc` over powers of two: the slot, at bit offset slot index times SEW (R117). -/
theorem elemLoc_pow (s e lmul i : Nat) :
    elemLoc (8 * 2 ^ s) (8 * 2 ^ e) lmul i =
      ((slotOf (2 ^ (s - e)) lmul i).1, (slotOf (2 ^ (s - e)) lmul i).2 * (8 * 2 ^ e)) := by
  simp only [elemLoc, runLength_pow, max_pow, slotOf]
  congr 1
  ring

theorem elemAt_pow (s e lmul r k : Nat) :
    elemAt (8 * 2 ^ s) (8 * 2 ^ e) lmul r k = (k / 2 ^ (s - e) * lmul + r) * 2 ^ (s - e) + k % 2 ^ (s - e) := by
  simp only [elemAt, runLength_pow]

theorem slotOf_fst_lt {e lmul : Nat} (i : Nat) (hl : 0 < lmul) : (slotOf e lmul i).1 < lmul := Nat.mod_lt _ hl

theorem slotOf_snd_lt {e lmul m i : Nat} (he : 0 < e) (hi : i < lmul * (e * m)) : (slotOf e lmul i).2 < e * m := by
  have h1 : i / e < lmul * m := by
    rw [Nat.div_lt_iff_lt_mul he]
    calc i < lmul * (e * m) := hi
      _ = lmul * m * e := by ring
  have h2 : i / e / lmul < m := Nat.div_lt_of_lt_mul h1
  have h3 : i % e < e := Nat.mod_lt _ he
  have h4 : (i / e / lmul + 1) * e ≤ m * e := Nat.mul_le_mul_right e h2
  simp only [slotOf]
  nlinarith

/-- The slot determines the index (R117). -/
theorem slotOf_inverse {e lmul : Nat} (i : Nat) (he : 0 < e) :
    ((slotOf e lmul i).2 / e * lmul + (slotOf e lmul i).1) * e + (slotOf e lmul i).2 % e = i := by
  have h3 : i % e < e := Nat.mod_lt _ he
  have hk : (i / e / lmul * e + i % e) / e = i / e / lmul := by
    rw [Nat.add_comm, Nat.add_mul_div_right _ _ he, Nat.div_eq_of_lt h3, Nat.zero_add]
  have hm : (i / e / lmul * e + i % e) % e = i % e := by
    rw [Nat.add_comm, Nat.add_mul_mod_self_right, Nat.mod_mod]
  simp only [slotOf, hk, hm]
  rw [Nat.mul_comm (i / e / lmul), Nat.div_add_mod, Nat.mul_comm, Nat.div_add_mod]

/-- Every slot is the slot of an index (R117). -/
theorem slotOf_surjective {e lmul r k : Nat} (he : 0 < e) (hr : r < lmul) :
    slotOf e lmul ((k / e * lmul + r) * e + k % e) = (r, k) := by
  have h3 : k % e < e := Nat.mod_lt _ he
  have h1 : ((k / e * lmul + r) * e + k % e) / e = k / e * lmul + r := by
    rw [Nat.add_comm, Nat.add_mul_div_right _ _ he, Nat.div_eq_of_lt h3, Nat.zero_add]
  have h2 : ((k / e * lmul + r) * e + k % e) % e = k % e := by
    rw [Nat.add_comm, Nat.add_mul_mod_self_right, Nat.mod_mod]
  have h4 : (k / e * lmul + r) % lmul = r := by
    rw [Nat.add_comm, Nat.add_mul_mod_self_right, Nat.mod_eq_of_lt hr]
  have h5 : (k / e * lmul + r) / lmul = k / e := by
    rw [Nat.add_comm, Nat.add_mul_div_right _ _ (by omega), Nat.div_eq_of_lt hr, Nat.zero_add]
  simp only [slotOf, h1, h2, h4, h5, Prod.mk.injEq, true_and]
  rw [Nat.mul_comm, Nat.div_add_mod]

theorem slotOf_injective {e lmul i j : Nat} (he : 0 < e) (h : slotOf e lmul i = slotOf e lmul j) : i = j := by
  rw [← slotOf_inverse (lmul := lmul) i he, h, slotOf_inverse j he]

/-- VLMAX elements fill the slots of the group, and a widened operand has as many (R117, R164). -/
theorem vlmax_pow {v e l : Nat} (he : e ≤ v) : l * (8 * 2 ^ v) / (8 * 2 ^ e) = l * 2 ^ (v - e) := by
  rw [← Nat.sub_add_cancel he, Nat.pow_add, Nat.add_sub_cancel]
  rw [show l * (8 * (2 ^ (v - e) * 2 ^ e)) = l * 2 ^ (v - e) * (8 * 2 ^ e) by ring]
  exact Nat.mul_div_cancel _ (by positivity)

theorem slots_pow {v s e : Nat} (hs : s ≤ v) : 2 ^ (v - e) = 2 ^ (s - e) * 2 ^ (v - e - (s - e)) := by
  rw [← Nat.pow_add]
  congr 1
  omega

theorem lmul_pos (l : Lmul) : 0 < l.toNat := by cases l <;> decide

/-- LMUL as a power of two. -/
theorem lmul_pow (l : Lmul) : ∃ n ≤ 3, l.toNat = 2 ^ n := by
  cases l
  exacts [⟨0, by decide, rfl⟩, ⟨1, by decide, rfl⟩, ⟨2, by decide, rfl⟩, ⟨3, by decide, rfl⟩]

theorem widened_pow {g : Geometry} (t : VType g) (k : Nat) : t.widened k = 8 * 2 ^ (k + t.sewLog.val) := by
  simp only [VType.widened, VType.sew, Nat.pow_add]
  ring

theorem sewLog_le {g : Geometry} (t : VType g) : t.sewLog.val ≤ g.vlenLog :=
  Nat.le_trans (Nat.lt_succ_iff.mp t.sewLog.isLt) g.elen_le_vlen

theorem vlmax_eq {g : Geometry} (t : VType g) : t.vlmax = t.lmul.toNat * 2 ^ (g.vlenLog - t.sewLog.val) :=
  vlmax_pow (sewLog_le t)

/-- An operand width that fits in a register, by its exponent (R6). -/
theorem widened_le {g : Geometry} {t : VType g} {k : Nat} (h : t.widened k ≤ g.vlen) : k + t.sewLog.val ≤ g.vlenLog := by
  rw [widened_pow] at h
  exact (Nat.pow_le_pow_iff_right (by decide)).mp (Nat.le_of_mul_le_mul_left h (by decide))

/-- An operand width that does not. -/
theorem widened_gt {g : Geometry} {t : VType g} {k : Nat} (h : g.vlen < t.widened k) : g.vlenLog < k + t.sewLog.val := by
  rw [widened_pow] at h
  exact (Nat.pow_lt_pow_iff_right (by decide)).mp (Nat.lt_of_mul_lt_mul_left h)

/-- VLMAX elements wider than a register are at most as many as the registers of their group (R164, N53). -/
theorem vlmax_le_groupSize {g : Geometry} {t : VType g} {k : Nat} (h : g.vlen < t.widened k) : t.vlmax ≤ t.groupSize k := by
  have hk := widened_gt h
  rw [vlmax_eq, VType.groupSize, Nat.mul_comm]
  exact Nat.mul_le_mul_right _ (Nat.pow_le_pow_right (by decide) (by omega))

/-- The element count of a widened operand that fits is VLMAX (R164). -/
theorem vlmax_widened {g : Geometry} {t : VType g} {k : Nat} (h : t.widened k ≤ g.vlen) :
    t.vlmax = t.groupSize k * 2 ^ (g.vlenLog - (k + t.sewLog.val)) := by
  have hk := widened_le h
  rw [vlmax_eq, VType.groupSize, show g.vlenLog - t.sewLog.val = k + (g.vlenLog - (k + t.sewLog.val)) by omega, Nat.pow_add]
  ring_nf

theorem groupSize_pos {g : Geometry} (t : VType g) (k : Nat) : 0 < t.groupSize k :=
  Nat.mul_pos (Nat.two_pow_pos k) (lmul_pos t.lmul)

end Sys2Proof.Laws
end

