-- ==== Sys2Proof/Laws/Ops.lean ====
section
/-! SUPPORT. Whole registers, bit slices and elements: what a read gives after a write, and what a write leaves alone (R17, R117, R118). -/

namespace Sys2Proof.Laws

open Config Machine

variable {g : Geometry}

/-! ### Whole registers and slices -/

theorem readV_writeV (v : VRegs g) (n m : Nat) (w : BitVec g.vlen) :
    readV (writeV v n w) m = if m = n ∧ n < 32 then w else readV v m := by
  unfold readV writeV
  by_cases hm : m < 32
  · by_cases hn : n = m
    · subst hn
      simp [Vector.getD, hm]
    · simp [Vector.getD, hm, hn, Ne.symm hn]
  · have h : ¬ (m = n ∧ n < 32) := by omega
    simp [Vector.getD, hm, h]

/-- Two register files that agree on every register are equal. -/
theorem vregs_ext {u v : VRegs g} (h : ∀ n < 32, readV u n = readV v n) : u = v := by
  apply Vector.ext
  intro i hi
  simpa [readV, Vector.getD, hi] using h i hi

theorem getLsbD_setSlice {n len : Nat} (r : BitVec n) (lo : Nat) (w : BitVec len) (i : Nat) :
    (setSlice r lo w).getLsbD i =
      if lo ≤ i ∧ i < lo + len ∧ i < n then w.getLsbD (i - lo) else r.getLsbD i := by
  unfold setSlice
  by_cases hn : i < n
  · by_cases hlo : lo ≤ i
    · by_cases hhi : i < lo + len
      · have : i - lo < n := by omega
        have : i - lo < len := by omega
        simp [*, Nat.not_lt.mpr hlo]
      · have h1 : ¬ i - lo < len := by omega
        have h2 : w.getLsbD (i - lo) = false := BitVec.getLsbD_of_ge _ _ (by omega)
        simp [hn, hhi, h1, h2]
    · simp [hn, hlo, Nat.lt_of_not_le hlo]
  · have h2 : r.getLsbD i = false := BitVec.getLsbD_of_ge _ _ (by omega)
    simp [hn, h2]

/-- A slice reads back what was written over it. -/
theorem slice_setSlice_same {n len : Nat} (r : BitVec n) (lo : Nat) (w : BitVec len) (h : lo + len ≤ n) :
    slice (setSlice r lo w) lo len = w := by
  apply BitVec.eq_of_getLsbD_eq
  intro i hi
  have h1 : lo ≤ lo + i ∧ lo + i < lo + len ∧ lo + i < n := by omega
  simp only [slice, BitVec.getLsbD_extractLsb', hi, decide_true, Bool.true_and, getLsbD_setSlice, if_pos h1,
    Nat.add_sub_cancel_left]

/-- A slice written leaves a disjoint slice alone. -/
theorem slice_setSlice_other {n len len' : Nat} (r : BitVec n) (lo lo' : Nat) (w : BitVec len)
    (h : lo' + len' ≤ lo ∨ lo + len ≤ lo') : slice (setSlice r lo w) lo' len' = slice r lo' len' := by
  apply BitVec.eq_of_getLsbD_eq
  intro i hi
  have h1 : ¬ (lo ≤ lo' + i ∧ lo' + i < lo + len ∧ lo' + i < n) := by omega
  simp only [slice, BitVec.getLsbD_extractLsb', hi, decide_true, Bool.true_and, getLsbD_setSlice, if_neg h1]

/-- A bit of a register is the bit of the slice that covers it. -/
theorem getLsbD_slice {n : Nat} (r : BitVec n) (lo len i : Nat) (h : i < len) :
    (slice r lo len).getLsbD i = r.getLsbD (lo + i) := by simp [slice, h]

/-! ### Elements -/

/-- The operand of exponent `e` (element width `8 * 2 ^ e`) and group size `l`: where its element `i` lies. -/
theorem elemLoc_geom (e l i : Nat) :
    elemLoc g.slen (8 * 2 ^ e) l i =
      ((slotOf (2 ^ (g.slenLog - e)) l i).1, (slotOf (2 ^ (g.slenLog - e)) l i).2 * (8 * 2 ^ e)) :=
  elemLoc_pow _ _ _ _

/-- An element below VLMAX lies inside one register of its group (R117). -/
theorem elemLoc_bounds {e l i : Nat} (he : e ≤ g.vlenLog) (hl : 0 < l) (hi : i < l * 2 ^ (g.vlenLog - e)) :
    (elemLoc g.slen (8 * 2 ^ e) l i).1 < l ∧ (elemLoc g.slen (8 * 2 ^ e) l i).2 + 8 * 2 ^ e ≤ g.vlen := by
  rw [elemLoc_geom]
  refine ⟨slotOf_fst_lt i hl, ?_⟩
  rw [slots_pow g.slen_le_vlen] at hi
  have hk := slotOf_snd_lt (Nat.two_pow_pos _) hi
  rw [← slots_pow g.slen_le_vlen] at hk
  calc (slotOf (2 ^ (g.slenLog - e)) l i).2 * (8 * 2 ^ e) + 8 * 2 ^ e
      = ((slotOf (2 ^ (g.slenLog - e)) l i).2 + 1) * (8 * 2 ^ e) := by ring
    _ ≤ 2 ^ (g.vlenLog - e) * (8 * 2 ^ e) := Nat.mul_le_mul_right _ hk
    _ = 8 * (2 ^ (g.vlenLog - e) * 2 ^ e) := by ring
    _ = g.vlen := by rw [← Nat.pow_add, Nat.sub_add_cancel he]

/-- Distinct elements never overlap (R117). -/
theorem elemLoc_disjoint {e l i j : Nat} (h : i ≠ j) :
    (elemLoc g.slen (8 * 2 ^ e) l i).1 ≠ (elemLoc g.slen (8 * 2 ^ e) l j).1 ∨
      (elemLoc g.slen (8 * 2 ^ e) l i).2 + 8 * 2 ^ e ≤ (elemLoc g.slen (8 * 2 ^ e) l j).2 ∨
      (elemLoc g.slen (8 * 2 ^ e) l j).2 + 8 * 2 ^ e ≤ (elemLoc g.slen (8 * 2 ^ e) l i).2 := by
  rw [elemLoc_geom, elemLoc_geom]
  by_cases h1 : (slotOf (2 ^ (g.slenLog - e)) l i).1 = (slotOf (2 ^ (g.slenLog - e)) l j).1
  · refine .inr ?_
    have h2 : (slotOf (2 ^ (g.slenLog - e)) l i).2 ≠ (slotOf (2 ^ (g.slenLog - e)) l j).2 := fun h2 =>
      h (slotOf_injective (Nat.two_pow_pos _) (Prod.ext h1 h2))
    rcases Nat.lt_or_gt_of_ne h2 with h3 | h3
    · refine .inl ?_
      calc _ = ((slotOf (2 ^ (g.slenLog - e)) l i).2 + 1) * (8 * 2 ^ e) := by ring
        _ ≤ _ := Nat.mul_le_mul_right _ h3
    · refine .inr ?_
      calc _ = ((slotOf (2 ^ (g.slenLog - e)) l j).2 + 1) * (8 * 2 ^ e) := by ring
        _ ≤ _ := Nat.mul_le_mul_right _ h3
  · exact .inl h1

section

variable {e l base : Nat} (he : e ≤ g.vlenLog) (hl : 0 < l) (hb : base + l ≤ 32)

include he hl hb

/-- An element reads back what was written to it (R118). -/
theorem elemRead_elemWrite_same (v : VRegs g) {i : Nat} (hi : i < l * 2 ^ (g.vlenLog - e)) (w : BitVec (8 * 2 ^ e)) :
    elemRead (elemWrite v base (8 * 2 ^ e) l i w) base (8 * 2 ^ e) l i = w := by
  obtain ⟨h1, h2⟩ := elemLoc_bounds he hl hi
  have h3 : base + (elemLoc g.slen (8 * 2 ^ e) l i).1 < 32 := by omega
  simp only [elemRead, elemWrite, readV_writeV, h3, and_self, if_true]
  exact slice_setSlice_same _ _ _ h2

omit he hl hb in
/-- An element written leaves every other element of its group alone (R118). -/
theorem elemRead_elemWrite_other (v : VRegs g) {i j : Nat} (h : i ≠ j) (w : BitVec (8 * 2 ^ e)) :
    elemRead (elemWrite v base (8 * 2 ^ e) l i w) base (8 * 2 ^ e) l j = elemRead v base (8 * 2 ^ e) l j := by
  simp only [elemRead, elemWrite, readV_writeV]
  split
  · next h0 =>
    rcases elemLoc_disjoint (g := g) (e := e) (l := l) h with h1 | h1
    · omega
    · rw [show (elemLoc g.slen (8 * 2 ^ e) l i).1 = (elemLoc g.slen (8 * 2 ^ e) l j).1 by omega]
      exact slice_setSlice_other _ _ _ _ (by omega)
  · rfl

omit he hb in
/-- An element written leaves every register outside its group alone (R118). -/
theorem readV_elemWrite_outside (v : VRegs g) {i n : Nat} (hn : n < base ∨ base + l ≤ n) (w : BitVec (8 * 2 ^ e)) :
    readV (elemWrite v base (8 * 2 ^ e) l i w) n = readV v n := by
  have h1 : (elemLoc g.slen (8 * 2 ^ e) l i).1 < l := by
    rw [elemLoc_geom]
    exact slotOf_fst_lt i hl
  simp only [elemWrite, readV_writeV]
  rw [if_neg (by omega)]

omit he hb in
theorem readV_writeElems_outside (v : VRegs g) (upd : Nat → Option (BitVec (8 * 2 ^ e))) (n : Nat) {m : Nat}
    (hm : m < base ∨ base + l ≤ m) : readV (writeElems v base (8 * 2 ^ e) l upd n) m = readV v m := by
  induction n with
  | zero => rfl
  | succ n ih =>
    simp only [writeElems]
    split
    · rw [readV_elemWrite_outside hl _ hm, ih]
    · exact ih

/-- What writing elements `0 .. n-1` of a group does (R200 step 5): each element below `n` has its value if it was given one, and every
other element is as before. -/
theorem elemRead_writeElems (v : VRegs g) (upd : Nat → Option (BitVec (8 * 2 ^ e))) (n : Nat)
    (hn : n ≤ l * 2 ^ (g.vlenLog - e)) (i : Nat) :
    elemRead (writeElems v base (8 * 2 ^ e) l upd n) base (8 * 2 ^ e) l i =
      if i < n then (upd i).getD (elemRead v base (8 * 2 ^ e) l i) else elemRead v base (8 * 2 ^ e) l i := by
  induction n with
  | zero => rfl
  | succ n ih =>
    have ih := ih (by omega)
    simp only [writeElems]
    by_cases hin : i = n
    · subst hin
      rw [if_pos (by omega)]
      split
      · next w hw => rw [elemRead_elemWrite_same he hl hb _ (by omega), hw, Option.getD_some]
      · next hw => rw [ih, if_neg (by omega), hw, Option.getD_none]
    · have hlt : i < n + 1 ↔ i < n := by omega
      simp only [hlt]
      split
      · rw [elemRead_elemWrite_other _ (Ne.symm hin), ih]
      · exact ih

omit he hl in
/-- The elements of a group determine its registers: every bit belongs to an element (R117). -/
theorem readV_eq_of_elems {u v : VRegs g} (he : e ≤ g.vlenLog)
    (h : ∀ i < l * 2 ^ (g.vlenLog - e), elemRead u base (8 * 2 ^ e) l i = elemRead v base (8 * 2 ^ e) l i) {n : Nat}
    (hn : base ≤ n) (hn' : n < base + l) : readV u n = readV v n := by
  apply BitVec.eq_of_getLsbD_eq
  intro j hj
  have hw : 0 < 8 * 2 ^ e := by positivity
  have hE : 0 < 2 ^ (g.slenLog - e) := Nat.two_pow_pos _
  set k := j / (8 * 2 ^ e) with hk
  have hkN : k < 2 ^ (g.vlenLog - e) := by
    rw [hk, Nat.div_lt_iff_lt_mul hw]
    calc j < g.vlen := hj
      _ = 2 ^ (g.vlenLog - e) * (8 * 2 ^ e) := by
        rw [show 2 ^ (g.vlenLog - e) * (8 * 2 ^ e) = 8 * (2 ^ (g.vlenLog - e) * 2 ^ e) by ring, ← Nat.pow_add,
          Nat.sub_add_cancel he]
  set i := (k / 2 ^ (g.slenLog - e) * l + (n - base)) * 2 ^ (g.slenLog - e) + k % 2 ^ (g.slenLog - e) with hi
  have hslot : slotOf (2 ^ (g.slenLog - e)) l i = (n - base, k) := slotOf_surjective hE (by omega)
  have hilt : i < l * 2 ^ (g.vlenLog - e) := by
    have hq : k / 2 ^ (g.slenLog - e) < 2 ^ (g.vlenLog - e - (g.slenLog - e)) := by
      rw [Nat.div_lt_iff_lt_mul hE, ← Nat.pow_add]
      refine Nat.lt_of_lt_of_le hkN (Nat.pow_le_pow_right (by decide) ?_)
      omega
    have hm : k % 2 ^ (g.slenLog - e) < 2 ^ (g.slenLog - e) := Nat.mod_lt _ hE
    rw [slots_pow g.slen_le_vlen]
    have h1 : k / 2 ^ (g.slenLog - e) * l + (n - base) + 1 ≤ 2 ^ (g.vlenLog - e - (g.slenLog - e)) * l := by
      have := Nat.mul_le_mul_right l hq
      rw [Nat.succ_mul] at this
      omega
    have h2 := Nat.mul_le_mul_right (2 ^ (g.slenLog - e)) h1
    rw [hi]
    have h3 : l * (2 ^ (g.slenLog - e) * 2 ^ (g.vlenLog - e - (g.slenLog - e))) =
        2 ^ (g.vlenLog - e - (g.slenLog - e)) * l * 2 ^ (g.slenLog - e) := by ring
    rw [h3]
    nlinarith
  have := congrArg (fun w => w.getLsbD (j % (8 * 2 ^ e))) (h i hilt)
  simp only [elemRead, elemLoc_geom, hslot, slice, BitVec.getLsbD_extractLsb', Nat.mod_lt j hw, decide_true, Bool.true_and] at this
  rwa [show base + (n - base) = n by omega, hk, Nat.mul_comm, Nat.div_add_mod] at this

end

/-! ### Elements wider than a register (N53, R116) -/

/-- Writing at least a whole register's width at bit 0 replaces the register. -/
theorem setSlice_whole {n len : Nat} (r : BitVec n) (w : BitVec len) (h : n ≤ len) : setSlice r 0 w = w.setWidth n := by
  apply BitVec.eq_of_getLsbD_eq
  intro i hi
  have h1 : 0 ≤ i ∧ i < 0 + len ∧ i < n := by omega
  rw [getLsbD_setSlice, if_pos h1]
  simp [hi]

section

variable {e l : Nat} (he : g.vlenLog < e)

include he

/-- An element wider than a register lies at bit 0 of the register of its index (R116). -/
theorem elemLoc_wide {i : Nat} (hi : i < l) : elemLoc g.slen (8 * 2 ^ e) l i = (i, 0) := by
  have := g.slen_le_vlen
  rw [elemLoc_geom, Nat.sub_eq_zero_of_le (by omega)]
  simp [slotOf, Nat.mod_one, Nat.mod_eq_of_lt hi, Nat.div_eq_of_lt hi]

theorem vlen_le_wide : g.vlen ≤ 8 * 2 ^ e := Nat.mul_le_mul_left 8 (Nat.pow_le_pow_right (by decide) he.le)

/-- What `ElemRead` gives of it: the register, zero above (R118). -/
theorem elemRead_wide (v : VRegs g) (base : Nat) {i : Nat} (hi : i < l) :
    elemRead v base (8 * 2 ^ e) l i = (readV v (base + i)).setWidth _ := by
  simp only [elemRead, elemLoc_wide he hi, slice]
  apply BitVec.eq_of_getLsbD_eq
  intro j hj
  simp [hj]

/-- Writing elements `0 .. n-1` replaces the registers of those that were given a value, by what fits of it (R118, R200 step 5). -/
theorem readV_writeElems_wide (v : VRegs g) {base : Nat} (hb : base + l ≤ 32) (upd : Nat → Option (BitVec (8 * 2 ^ e))) (n : Nat)
    (hn : n ≤ l) (m : Nat) :
    readV (writeElems v base (8 * 2 ^ e) l upd n) m =
      if base ≤ m ∧ m < base + n then ((upd (m - base)).map (·.setWidth g.vlen)).getD (readV v m) else readV v m := by
  induction n with
  | zero => rw [if_neg (by omega)]; rfl
  | succ n ih =>
    have ih := ih (by omega)
    have hw : ∀ u w, readV (elemWrite u base (8 * 2 ^ e) l n w) m =
        if m = base + n then w.setWidth g.vlen else readV u m := fun u w => by
      simp only [elemWrite, elemLoc_wide he (show n < l by omega), readV_writeV, setSlice_whole _ _ (vlen_le_wide he),
        show base + n < 32 by omega, and_true]
    simp only [writeElems]
    by_cases hm : m = base + n
    · subst hm
      rw [if_pos (by omega), Nat.add_sub_cancel_left]
      split
      · next w h => rw [hw, if_pos rfl, h, Option.map_some, Option.getD_some]
      · next h => rw [ih, if_neg (by omega), h, Option.map_none, Option.getD_none]
    · have hiff : (base ≤ m ∧ m < base + (n + 1)) ↔ base ≤ m ∧ m < base + n := by omega
      simp only [hiff]
      split
      · rw [hw, if_neg hm, ih]
      · exact ih

end

end Sys2Proof.Laws
end

