-- ==== Sys2Proof/Laws/Flags.lean ====
section
/-! SUPPORT. Masks: the mask elements tile the register, a mask element reads back what was written, and writing one leaves the others
alone (R143, R144, R145, R150). -/

namespace Sys2Proof.Laws

open Config Machine

variable {g : Geometry}

/-- MLEN over powers of two. -/
theorem mlen_pow (t : VType g) : ∃ n ≤ 3, t.lmul.toNat = 2 ^ n ∧ t.mlen = 2 ^ (3 + t.sewLog.val - n) := by
  obtain ⟨n, hn, h⟩ := lmul_pow t.lmul
  refine ⟨n, hn, h, ?_⟩
  rw [VType.mlen, VType.sew, h, show (8 : Nat) = 2 ^ 3 from rfl, ← Nat.pow_add, Nat.pow_div (by omega) (by decide)]

theorem mlen_pos (t : VType g) : 0 < t.mlen := by
  obtain ⟨n, -, -, h⟩ := mlen_pow t
  rw [h]
  exact Nat.two_pow_pos _

/-- VLMAX * MLEN = VLEN (R143). -/
theorem mlen_mul_vlmax (t : VType g) : t.mlen * t.vlmax = g.vlen := by
  obtain ⟨n, hn, hl, hm⟩ := mlen_pow t
  have := sewLog_le t
  rw [vlmax_eq, hl, hm, ← Nat.pow_add, ← Nat.pow_add, Geometry.vlen, show (8 : Nat) = 2 ^ 3 from rfl, ← Nat.pow_add]
  congr 1
  omega

/-- A mask element below VLMAX lies inside the register (R143, R144). -/
theorem maskElem_bound (t : VType g) {i : Nat} (hi : i < t.vlmax) : t.mlen * i + t.mlen ≤ g.vlen := by
  rw [← mlen_mul_vlmax t, ← Nat.mul_succ]
  exact Nat.mul_le_mul_left _ hi

/-- The predicate is bit 0 of the mask element (R146). -/
theorem maskBit_eq (v : VRegs g) (n : Nat) {mlen : Nat} (h : 0 < mlen) (i : Nat) :
    maskBit v n mlen i = (maskElemRead v n mlen i).getLsbD 0 := by
  simp [maskBit, maskElemRead, slice, h]

theorem maskElemRead_write_same (v : VRegs g) (t : VType g) {n i : Nat} (hn : n < 32) (hi : i < t.vlmax) (b : Bool) :
    maskElemRead (maskElemWrite v n t.mlen i b) n t.mlen i = (BitVec.ofBool b).setWidth t.mlen := by
  simp only [maskElemRead, maskElemWrite, readV_writeV, hn, and_self, if_true]
  exact slice_setSlice_same _ _ _ (maskElem_bound t hi)

theorem maskElemRead_write_other (v : VRegs g) (mlen n i j : Nat) (h : i ≠ j) (b : Bool) :
    maskElemRead (maskElemWrite v n mlen i b) n mlen j = maskElemRead v n mlen j := by
  simp only [maskElemRead, maskElemWrite, readV_writeV]
  split
  · apply slice_setSlice_other
    rcases Nat.lt_or_gt_of_ne h with h | h
    · exact .inr (by rw [← Nat.mul_succ]; exact Nat.mul_le_mul_left _ h)
    · exact .inl (by rw [← Nat.mul_succ]; exact Nat.mul_le_mul_left _ h)
  · rfl

theorem readV_maskElemWrite_outside (v : VRegs g) (mlen n i : Nat) (b : Bool) {m : Nat} (hm : m ≠ n) :
    readV (maskElemWrite v n mlen i b) m = readV v m := by
  simp only [maskElemWrite, readV_writeV]
  rw [if_neg (fun h => hm h.1)]

theorem readV_writeMaskElems_outside (v : VRegs g) (mlen r : Nat) (upd : Nat → Option Bool) (n : Nat) {m : Nat} (hm : m ≠ r) :
    readV (writeMaskElems v r mlen upd n) m = readV v m := by
  induction n with
  | zero => rfl
  | succ n ih =>
    simp only [writeMaskElems]
    split
    · rw [readV_maskElemWrite_outside _ _ _ _ _ hm, ih]
    · exact ih

/-- What writing mask elements `0 .. n-1` does (R200 step 5): each below `n` is the zero-extended bit it was given, if any (R145), and
every other mask element is as before. -/
theorem maskElemRead_writeMaskElems (v : VRegs g) (t : VType g) {r : Nat} (hr : r < 32) (upd : Nat → Option Bool) (n : Nat)
    (hn : n ≤ t.vlmax) (i : Nat) :
    maskElemRead (writeMaskElems v r t.mlen upd n) r t.mlen i =
      if i < n then ((upd i).map fun b => (BitVec.ofBool b).setWidth t.mlen).getD (maskElemRead v r t.mlen i)
      else maskElemRead v r t.mlen i := by
  induction n with
  | zero => rfl
  | succ n ih =>
    have ih := ih (by omega)
    simp only [writeMaskElems]
    by_cases hin : i = n
    · subst hin
      rw [if_pos (by omega)]
      split
      · next b hb => rw [maskElemRead_write_same _ _ hr (by omega), hb, Option.map_some, Option.getD_some]
      · next hb => rw [ih, if_neg (by omega), hb, Option.map_none, Option.getD_none]
    · have hlt : i < n + 1 ↔ i < n := by omega
      simp only [hlt]
      split
      · rw [maskElemRead_write_other _ _ _ _ _ (Ne.symm hin), ih]
      · exact ih

end Sys2Proof.Laws
end

