-- ==== Sys2Proof/Laws/Memory.lean ====
section
/-! SUPPORT. Memory: every operation keeps the canonical form and the address range, a read gives what was written, and a write leaves
every other address alone; a loaded program is read back word by word and byte by byte (R54, R244). -/

namespace Sys2Proof.Laws

open Config Machine

/-! ### One byte -/

theorem mem_writeByte {m : Memory} {a : Nat} {w : Byte} {c : Host.Cell} (h : c ∈ m.writeByte a w) : c = (a, w) ∨ c ∈ m := by
  induction m with
  | nil => simpa [Memory.writeByte] using h
  | cons d rest ih =>
    obtain ⟨b, u⟩ := d
    simp only [Memory.writeByte] at h
    split at h
    · simpa using h
    · split at h
      · rcases List.mem_cons.mp h with h | h
        exacts [.inl h, .inr (List.mem_cons_of_mem _ h)]
      · rcases List.mem_cons.mp h with h | h
        · exact .inr (h ▸ List.mem_cons_self)
        · exact (ih h).imp_right (List.mem_cons_of_mem _)

theorem wf_writeByte {m : Memory} (h : m.wf) (a : Nat) (w : Byte) : (m.writeByte a w).wf := by
  induction m with
  | nil => simp [Memory.writeByte]
  | cons d rest ih =>
    obtain ⟨b, u⟩ := d
    obtain ⟨h1, h2⟩ := List.pairwise_cons.mp h
    simp only [Memory.writeByte]
    split
    · next hab =>
      refine List.pairwise_cons.mpr ⟨fun c hc => ?_, h⟩
      rcases List.mem_cons.mp hc with rfl | hc
      exacts [hab, Nat.lt_trans hab (h1 c hc)]
    · split
      · next hab => exact List.pairwise_cons.mpr ⟨fun c hc => by simpa [hab] using h1 c hc, h2⟩
      · refine List.pairwise_cons.mpr ⟨fun c hc => ?_, ih h2⟩
        rcases mem_writeByte hc with rfl | hc
        · show b < a
          omega
        · exact h1 c hc

theorem readByte_writeByte (m : Memory) (a b : Nat) (w : Byte) :
    (m.writeByte a w).readByte b = if b = a then some w else m.readByte b := by
  induction m with
  | nil => rfl
  | cons d rest ih =>
    obtain ⟨c, u⟩ := d
    simp only [Memory.writeByte]
    split
    · rfl
    · split
      · next h =>
        subst h
        simp only [Memory.readByte]
        split <;> simp_all
      · simp only [Memory.readByte, ih]
        split
        · split
          · omega
          · rfl
        · rfl

/-! ### Several bytes, addresses modulo `2 ^ xlen` -/

theorem succ_mod_add (a j N : Nat) : ((a + 1) % N + j) % N = (a + (j + 1)) % N := by
  rw [Nat.mod_add_mod]
  congr 1
  omega

theorem write_keeps {m : Memory} {xlen : Nat} (hw : m.wf) (hr : ∀ c ∈ m, c.1 < 2 ^ xlen) {a : Nat} (ha : a < 2 ^ xlen)
    (v n : Nat) : (m.write xlen a v n).wf ∧ ∀ c ∈ m.write xlen a v n, c.1 < 2 ^ xlen := by
  induction n generalizing m a v with
  | zero => exact ⟨hw, hr⟩
  | succ n ih =>
    refine ih (wf_writeByte hw _ _) (fun c hc => ?_) (Nat.mod_lt _ (Nat.two_pow_pos _)) _
    rcases mem_writeByte hc with rfl | hc
    exacts [ha, hr c hc]

theorem readByte_write_outside (m : Memory) (xlen a v n b : Nat) (ha : a < 2 ^ xlen) (h : ∀ j < n, b ≠ (a + j) % 2 ^ xlen) :
    (m.write xlen a v n).readByte b = m.readByte b := by
  induction n generalizing m a v with
  | zero => rfl
  | succ n ih =>
    simp only [Memory.write]
    rw [ih _ _ _ (Nat.mod_lt _ (Nat.two_pow_pos _)) (fun j hj => by rw [succ_mod_add]; exact h (j + 1) (by omega)),
      readByte_writeByte, if_neg (by simpa [Nat.mod_eq_of_lt ha] using h 0 (by omega))]

/-- A read of several bytes depends only on those bytes. -/
theorem read_congr {m m' : Memory} {xlen a n : Nat} (ha : a < 2 ^ xlen)
    (h : ∀ j < n, m.readByte ((a + j) % 2 ^ xlen) = m'.readByte ((a + j) % 2 ^ xlen)) : m.read xlen a n = m'.read xlen a n := by
  induction n generalizing a with
  | zero => rfl
  | succ n ih =>
    have h0 := h 0 (by omega)
    simp only [Nat.add_zero, Nat.mod_eq_of_lt ha] at h0
    simp only [Memory.read, h0,
      ih (Nat.mod_lt _ (Nat.two_pow_pos _)) (fun j hj => by rw [succ_mod_add]; exact h (j + 1) (by omega))]

theorem add_mod_ne {a i j N : Nat} (hi : i < N) (hj : j < N) (h : i ≠ j) : (a + i) % N ≠ (a + j) % N := by
  intro e
  have : i ≡ j [MOD N] := Nat.ModEq.add_left_cancel' a e
  exact h (by simpa [Nat.ModEq, Nat.mod_eq_of_lt, hi, hj] using this)

/-- A read gives back what was written (R17, R54). -/
theorem read_write (m : Memory) (xlen a v n : Nat) (ha : a < 2 ^ xlen) (hn : n ≤ 2 ^ xlen) :
    (m.write xlen a v n).read xlen a n = some (v % 256 ^ n) := by
  induction n generalizing m a v with
  | zero => simp [Memory.read, Nat.mod_one]
  | succ n ih =>
    have hlt := Nat.mod_lt (a + 1) (Nat.two_pow_pos xlen)
    have h0 : (m.write xlen a v (n + 1)).readByte a = some (BitVec.ofNat 8 v) := by
      simp only [Memory.write]
      rw [readByte_write_outside _ _ _ _ _ _ hlt, readByte_writeByte, if_pos rfl]
      intro j hj
      rw [succ_mod_add]
      have := add_mod_ne (a := a) (i := 0) (j := j + 1) (N := 2 ^ xlen) (by omega) (by omega) (by omega)
      simpa [Nat.mod_eq_of_lt ha] using this
    simp only [Memory.read, h0]
    simp only [Memory.write]
    rw [ih _ _ _ hlt (by omega)]
    simp only [BitVec.toNat_ofNat, Nat.reducePow, Option.some.injEq]
    rw [Nat.pow_succ', Nat.mod_mul]

/-- The bytes of a value that is read: byte `j` is at address `a + j` (R54). -/
theorem readByte_of_read {m : Memory} {xlen a v n : Nat} (ha : a < 2 ^ xlen) (h : m.read xlen a n = some v) {j : Nat} (hj : j < n) :
    m.readByte ((a + j) % 2 ^ xlen) = some (BitVec.ofNat 8 (v / 256 ^ j)) := by
  induction n generalizing a v j with
  | zero => omega
  | succ n ih =>
    simp only [Memory.read] at h
    split at h
    · next b rest hb hr =>
      obtain rfl := Option.some.inj h
      cases j with
      | zero =>
        rw [Nat.add_zero, Nat.mod_eq_of_lt ha, hb]
        refine congrArg some (BitVec.eq_of_toNat_eq ?_)
        have := b.isLt
        simp only [Nat.pow_zero, Nat.div_one, BitVec.toNat_ofNat]
        omega
      | succ j =>
        have := ih (Nat.mod_lt _ (Nat.two_pow_pos _)) hr (show j < n by omega)
        rw [succ_mod_add] at this
        have hd : (b.toNat + 256 * rest) / 256 = rest := by have := b.isLt; omega
        rw [this, Nat.pow_succ', ← Nat.div_div_eq_div_mul, hd]
    · cases h

/-! ### Programs -/

theorem writeWords_keeps {m : Memory} {xlen : Nat} (hw : m.wf) (hr : ∀ c ∈ m, c.1 < 2 ^ xlen) {a : Nat} (ha : a < 2 ^ xlen)
    (ws : List Word) : (m.writeWords xlen a ws).wf ∧ ∀ c ∈ m.writeWords xlen a ws, c.1 < 2 ^ xlen := by
  induction ws generalizing m a with
  | nil => exact ⟨hw, hr⟩
  | cons w rest ih =>
    obtain ⟨h1, h2⟩ := write_keeps hw hr ha w.toNat 4
    exact ih h1 h2 (Nat.mod_lt _ (Nat.two_pow_pos _))

theorem readByte_writeWords_outside (m : Memory) (xlen a b : Nat) (ws : List Word) (ha : a < 2 ^ xlen)
    (h : ∀ j < 4 * ws.length, b ≠ (a + j) % 2 ^ xlen) : (m.writeWords xlen a ws).readByte b = m.readByte b := by
  induction ws generalizing m a with
  | nil => rfl
  | cons w rest ih =>
    simp only [List.length_cons] at h
    simp only [Memory.writeWords]
    rw [ih _ _ (Nat.mod_lt _ (Nat.two_pow_pos _)) (fun j hj => by
        rw [Nat.mod_add_mod, Nat.add_assoc]
        exact h (4 + j) (by omega)),
      readByte_write_outside _ _ _ _ _ _ ha (fun j hj => h j (by omega))]

/-- Every word of a program that fits in the address space is read back at its address (R244). -/
theorem read_writeWords (m : Memory) (xlen a : Nat) (ws : List Word) (ha : a < 2 ^ xlen) (hn : 4 * ws.length ≤ 2 ^ xlen) (k : Nat)
    (hk : k < ws.length) : (m.writeWords xlen a ws).read xlen ((a + 4 * k) % 2 ^ xlen) 4 = some (ws[k].toNat) := by
  induction ws generalizing m a k with
  | nil => simp at hk
  | cons w rest ih =>
    simp only [List.length_cons] at hn hk
    simp only [Memory.writeWords]
    cases k with
    | zero =>
      simp only [Nat.mul_zero, Nat.add_zero, Nat.mod_eq_of_lt ha, List.getElem_cons_zero]
      rw [read_congr (m' := m.write xlen a w.toNat 4) ha, read_write _ _ _ _ _ ha (by omega)]
      · simpa using w.isLt
      · intro j hj
        rw [readByte_writeWords_outside _ _ _ _ _ (Nat.mod_lt _ (Nat.two_pow_pos _))]
        intro i hi
        rw [Nat.mod_add_mod, Nat.add_assoc]
        exact add_mod_ne (by omega) (by omega) (by omega)
    | succ k =>
      have := ih (m.write xlen a w.toNat 4) ((a + 4) % 2 ^ xlen) (Nat.mod_lt _ (Nat.two_pow_pos _)) (by omega) k (by omega)
      rw [Nat.mod_add_mod, Nat.add_assoc, show 4 + 4 * k = 4 * (k + 1) by omega] at this
      simpa using this

end Sys2Proof.Laws
end

