-- ==== Sys2Proof/Laws/Operands.lean ====
section
/-! SUPPORT. What the operand checks guarantee: a checked group lies inside the register file (R170). -/

namespace Sys2Proof.Laws

open Config Machine

theorem pow_le_eight {n : Nat} (h : 2 ^ n ≤ 8) : n ≤ 3 := by
  by_contra hn
  have : 2 ^ 4 ≤ 2 ^ n := Nat.pow_le_pow_right (by decide) (by omega)
  omega

/-- A group of at most 8 registers that starts at a multiple of its size ends at `v31` or before (R170). -/
theorem group_inside (l : Lmul) (k : Nat) {n : Nat} (hn : n < 32) (h8 : 2 ^ k * l.toNat ≤ 8) (hm : n % (2 ^ k * l.toNat) = 0) :
    n + 2 ^ k * l.toNat ≤ 32 := by
  obtain ⟨m, -, hl⟩ := lmul_pow l
  rw [hl, ← Nat.pow_add] at h8 hm ⊢
  have := pow_le_eight h8
  interval_cases k + m <;> omega

/-- What the check says of a destination group (R163, R164, R167). -/
theorem operandOk_group {vm : Bool} {lmul n k : Nat} {isDest : Bool} (h : operandOk vm lmul ⟨n, .group k, isDest⟩ = true) :
    2 ^ k * lmul ≤ 8 ∧ n % (2 ^ k * lmul) = 0 := by
  simp only [operandOk, OperandKind.size, Bool.and_eq_true] at h
  exact ⟨of_decide_eq_true h.1.1, of_decide_eq_true h.1.2⟩

/-- The destination group of a checked instruction lies inside the register file. -/
theorem dest_inside {g : Geometry} (t : VType g) {vm : Bool} {d : Descriptor} {vs2 f19 f11 : RegNum} {k : Nat}
    (hd : d.dest = .vgroup k) (h : checkOperands vm t.lmul.toNat (vectorOperands d vs2 f19 f11) = true) :
    f11.toNat + t.groupSize k ≤ 32 := by
  have hm : (⟨f11.toNat, .group k, true⟩ : Operand) ∈ vectorOperands d vs2 f19 f11 := by simp [vectorOperands, hd]
  obtain ⟨h8, h0⟩ := operandOk_group (List.all_eq_true.mp h _ hm)
  exact group_inside t.lmul k f11.isLt h8 h0

/-- A group operand that fits in a register is its element (R118). -/
theorem groupElem_of_fits {g : Geometry} {a : Arch g} {n : RegNum} {k x : Nat} (h : a.vtype.widened k ≤ g.vlen) :
    a.groupElem n k x = (elemRead a.v n.toNat (a.vtype.widened k) (a.vtype.groupSize k) x).toNat := if_pos h

/-- The VLEN low bits of a group operand are those that a register holds (R118, N53). -/
theorem groupElem_mod {g : Geometry} (a : Arch g) (n : RegNum) (k x : Nat) :
    a.groupElem n k x % 2 ^ g.vlen =
      (elemRead a.v n.toNat (a.vtype.widened k) (a.vtype.groupSize k) x).toNat % 2 ^ g.vlen := by
  simp only [Arch.groupElem]
  split
  · rfl
  · rw [Nat.add_mul_mod_self_left]

end Sys2Proof.Laws
end

