-- ==== Sys2Proof/Laws/PerInstr.lean ====
section
/-! SUPPORT. Two facts about every instruction as syntax, one lemma per constructor: a well-formed instruction's word decodes to it
(RoundTrip), and the word is of the instruction's row of the opcode table (RowMatch). -/

namespace Sys2Proof.Laws

open Config

/-- The decoder reads a well-formed instruction back from its word, under every parameter `IsVectorWidth` (R89, R72 to R78). -/
def RoundTrip.Statement (i : Instr) : Prop := ∀ p : VectorWidths, i.wellFormed p = true → decode p (encode i) = .instr i

/-- The four major opcodes are four (R71). -/
theorem opcode_ne : (MajorOpcode.loadFp.bits = MajorOpcode.opV.bits) = False ∧ (MajorOpcode.storeFp.bits = MajorOpcode.opV.bits) = False ∧
    (MajorOpcode.amo.bits = MajorOpcode.opV.bits) = False ∧ (MajorOpcode.storeFp.bits = MajorOpcode.loadFp.bits) = False ∧
    (MajorOpcode.amo.bits = MajorOpcode.loadFp.bits) = False ∧ (MajorOpcode.amo.bits = MajorOpcode.storeFp.bits) = False := by
  simp [MajorOpcode.bits]

/-- An OP-V arithmetic word decodes to its instruction (R75). -/
theorem decode_encodeArith (p : VectorWidths) (c : Category) (f : BitVec 6) (vm : Bool) (vs2 f19 f11 : RegNum) :
    decode p (encodeArith c f vm vs2 f19 f11) = .instr (.arith c f vm vs2 f19 f11) := by
  simp only [decode, decodeOpV, encodeArith, layout_op, if_true, layout_f14, categoryOf_bits, layout_26_6, layout_bit25, layout_f24,
    layout_f19, layout_f11, arith_funct6, arith_vm]

theorem RoundTrip.opivv (f : BitVec 6) (vm : Bool) (a b c : RegNum) : Statement (.opivv f vm a b c) :=
  fun p _ => decode_encodeArith p .opivv f vm a b c
theorem RoundTrip.opfvv (f : BitVec 6) (vm : Bool) (a b c : RegNum) : Statement (.opfvv f vm a b c) :=
  fun p _ => decode_encodeArith p .opfvv f vm a b c
theorem RoundTrip.opmvv (f : BitVec 6) (vm : Bool) (a b c : RegNum) : Statement (.opmvv f vm a b c) :=
  fun p _ => decode_encodeArith p .opmvv f vm a b c
theorem RoundTrip.opivi (f : BitVec 6) (vm : Bool) (a b c : RegNum) : Statement (.opivi f vm a b c) :=
  fun p _ => decode_encodeArith p .opivi f vm a b c
theorem RoundTrip.opivx (f : BitVec 6) (vm : Bool) (a b c : RegNum) : Statement (.opivx f vm a b c) :=
  fun p _ => decode_encodeArith p .opivx f vm a b c
theorem RoundTrip.opfvf (f : BitVec 6) (vm : Bool) (a b c : RegNum) : Statement (.opfvf f vm a b c) :=
  fun p _ => decode_encodeArith p .opfvf f vm a b c
theorem RoundTrip.opmvx (f : BitVec 6) (vm : Bool) (a b c : RegNum) : Statement (.opmvx f vm a b c) :=
  fun p _ => decode_encodeArith p .opmvx f vm a b c

theorem RoundTrip.vload (nf mop : BitVec 3) (vm : Bool) (f24 rs1 : RegNum) (width : BitVec 3) (vd : RegNum) :
    Statement (.vload nf mop vm f24 rs1 width vd) := fun p h => by
  have h : p.isVectorWidth .loadFp width = true := h
  simp only [decode, encode, layout_op, layout_f14, layout_f11, layout_f19, layout_f24, layout_bit25, layout_26_3, layout_29_3, mem_nf,
    mem_mop, mem_vm, h, opcode_ne, and_self, if_true, if_false]

theorem RoundTrip.vstore (nf mop : BitVec 3) (vm : Bool) (f24 rs1 : RegNum) (width : BitVec 3) (vs3 : RegNum) :
    Statement (.vstore nf mop vm f24 rs1 width vs3) := fun p h => by
  have h : p.isVectorWidth .storeFp width = true := h
  simp only [decode, encode, layout_op, layout_f14, layout_f11, layout_f19, layout_f24, layout_bit25, layout_26_3, layout_29_3, mem_nf,
    mem_mop, mem_vm, h, opcode_ne, false_and, and_self, if_true, if_false]

theorem RoundTrip.vamo (amoop : BitVec 5) (wd vm : Bool) (vs2 rs1 : RegNum) (width : BitVec 3) (vs3Vd : RegNum) :
    Statement (.vamo amoop wd vm vs2 rs1 width vs3Vd) := fun p h => by
  have h : p.isVectorWidth .amo width = true := h
  simp only [decode, encode, layout_op, layout_f14, layout_f11, layout_f19, layout_f24, layout_bit25, layout_bit26, layout_27_5, amo_amoop,
    amo_wd, amo_vm, h, opcode_ne, false_and, and_self, if_true, if_false]

theorem RoundTrip.vsetvl (rs2 rs1 rd : RegNum) : Statement (.vsetvl rs2 rs1 rd) := fun p _ => by
  have h1 : categoryOf 0b111#3 = none := by decide
  have h2 : (0b1#1 ++ 0b000000#6 : BitVec 7).getLsbD 6 = true := by decide
  have h3 : (0b1#1 ++ 0b000000#6 : BitVec 7).extractLsb' 0 6 = 0b000000#6 := by decide
  simp only [decode, encode, layout_op, if_true, decodeOpV, layout_f14, h1, layout_bit31, h2, layout_25_6, h3, layout_f24, layout_f19,
    layout_f11, Bool.true_eq_false, if_false]

/-- The word of `vsetvli` by the shared layout: the 11-bit immediate covers bits 30:20 (R77, C13). -/
theorem encode_vsetvli (zimm : BitVec 11) (rs1 rd : RegNum) : encode (.vsetvli zimm rs1 rd) =
    layout (0b0#1 ++ zimm.extractLsb' 5 6) (zimm.extractLsb' 0 5) rs1 0b111#3 rd MajorOpcode.opV.bits := by
  apply BitVec.eq_of_getLsbD_eq
  intro i hi
  simp only [encode, layout, BitVec.getLsbD_append, BitVec.getLsbD_extractLsb']
  repeat' split
  all_goals first
    | rfl
    | omega
    | simp (disch := omega) [*]

theorem RoundTrip.vsetvli (zimm : BitVec 11) (rs1 rd : RegNum) : Statement (.vsetvli zimm rs1 rd) := fun p _ => by
  have h1 : categoryOf 0b111#3 = none := by decide
  have h2 : (0b0#1 ++ zimm.extractLsb' 5 6 : BitVec 7).getLsbD 6 = false := by
    simp only [BitVec.getLsbD_append]
    rfl
  have h3 : (encode (.vsetvli zimm rs1 rd)).extractLsb' 20 11 = zimm := by
    apply BitVec.eq_of_getLsbD_eq
    intro i hi
    simp (disch := omega) only [encode, BitVec.getLsbD_extractLsb', BitVec.getLsbD_append, hi, decide_true, Bool.true_and, if_neg, if_true,
      show 20 + i - 7 - 5 - 3 - 5 = i by omega]
  simp only [decode, decodeOpV, h3]
  simp only [encode_vsetvli, layout_op, if_true, layout_f14, h1, layout_bit31, h2, layout_f19, layout_f11]

/-! ### The rows of the opcode table -/

/-- An instruction's word is of its row: the fixed bits of `opcode_table.json` (R72 to R78). -/
def RowMatch.Statement (i : Instr) : Prop := encode i &&& i.row.1 = i.row.2

theorem and_eq_of_bits {w m r : Word} (h : ∀ i < 32, (w.getLsbD i && m.getLsbD i) = r.getLsbD i) : w &&& m = r :=
  BitVec.eq_of_getLsbD_eq fun i hi => by rw [BitVec.getLsbD_and, h i hi]

/-- The fixed bits of a row with a category. -/
theorem layout_and_category (f31 : BitVec 7) (f24 f19 : BitVec 5) (f14 : BitVec 3) (f11 : BitVec 5) (op : BitVec 7) :
    layout f31 f24 f19 f14 f11 op &&& 0x0000707F#32 = (0#17 ++ f14 ++ 0#5 ++ op : BitVec (17 + 3 + 5 + 7)) := by
  refine and_eq_of_bits fun i hi => ?_
  rw [getLsbD_layout]
  simp only [BitVec.getLsbD_append]
  interval_cases i <;> simp

/-- The fixed bits of a row with a major opcode only. -/
theorem layout_and_opcode (f31 : BitVec 7) (f24 f19 : BitVec 5) (f14 : BitVec 3) (f11 : BitVec 5) (op : BitVec 7) :
    layout f31 f24 f19 f14 f11 op &&& 0x0000007F#32 = (0#25 ++ op : BitVec (25 + 7)) := by
  refine and_eq_of_bits fun i hi => ?_
  rw [getLsbD_layout]
  simp only [BitVec.getLsbD_append]
  interval_cases i <;> simp

theorem RowMatch.opivv (f : BitVec 6) (vm : Bool) (a b c : RegNum) : Statement (.opivv f vm a b c) :=
  layout_and_category _ a b _ c _
theorem RowMatch.opfvv (f : BitVec 6) (vm : Bool) (a b c : RegNum) : Statement (.opfvv f vm a b c) :=
  layout_and_category _ a b _ c _
theorem RowMatch.opmvv (f : BitVec 6) (vm : Bool) (a b c : RegNum) : Statement (.opmvv f vm a b c) :=
  layout_and_category _ a b _ c _
theorem RowMatch.opivi (f : BitVec 6) (vm : Bool) (a b c : RegNum) : Statement (.opivi f vm a b c) :=
  layout_and_category _ a b _ c _
theorem RowMatch.opivx (f : BitVec 6) (vm : Bool) (a b c : RegNum) : Statement (.opivx f vm a b c) :=
  layout_and_category _ a b _ c _
theorem RowMatch.opfvf (f : BitVec 6) (vm : Bool) (a b c : RegNum) : Statement (.opfvf f vm a b c) :=
  layout_and_category _ a b _ c _
theorem RowMatch.opmvx (f : BitVec 6) (vm : Bool) (a b c : RegNum) : Statement (.opmvx f vm a b c) :=
  layout_and_category _ a b _ c _

theorem RowMatch.vload (nf mop : BitVec 3) (vm : Bool) (f24 rs1 : RegNum) (width : BitVec 3) (vd : RegNum) :
    Statement (.vload nf mop vm f24 rs1 width vd) := layout_and_opcode _ f24 rs1 width vd _
theorem RowMatch.vstore (nf mop : BitVec 3) (vm : Bool) (f24 rs1 : RegNum) (width : BitVec 3) (vs3 : RegNum) :
    Statement (.vstore nf mop vm f24 rs1 width vs3) := layout_and_opcode _ f24 rs1 width vs3 _
theorem RowMatch.vamo (amoop : BitVec 5) (wd vm : Bool) (vs2 rs1 : RegNum) (width : BitVec 3) (vs3Vd : RegNum) :
    Statement (.vamo amoop wd vm vs2 rs1 width vs3Vd) := layout_and_opcode _ vs2 rs1 width vs3Vd _

theorem RowMatch.vsetvli (zimm : BitVec 11) (rs1 rd : RegNum) : Statement (.vsetvli zimm rs1 rd) := by
  refine and_eq_of_bits fun i hi => ?_
  simp only [encode, BitVec.getLsbD_append]
  interval_cases i <;> simp [MajorOpcode.bits, Instr.row]

theorem RowMatch.vsetvl (rs2 rs1 rd : RegNum) : Statement (.vsetvl rs2 rs1 rd) := by
  refine and_eq_of_bits fun i hi => ?_
  simp only [encode, getLsbD_layout, BitVec.getLsbD_append]
  interval_cases i <;> simp [MajorOpcode.bits, Instr.row]

end Sys2Proof.Laws
end

