-- ==== Sys2Proof/Laws/Template.lean ====
section
/-! SUPPORT. The template R200: when it completes and with which state, what its update does to each destination element, and what it
leaves alone. -/

namespace Sys2Proof.Laws

open Config Machine Safety

variable {s t : State} {slot : Slot} {d : Descriptor} {inst : Word} {vm : Bool} {vs2 f19 f11 : RegNum} {k : Nat}

theorem execTemplate_group (h : Executes s slot d vm vs2 f19 f11) (hd : d.dest = .vgroup k) :
    execTemplate slot inst vm vs2 f19 f11 s =
      s.finish { s.arch with v := s.arch.updateGroup s.params.zfinx slot d vm vs2 f19 f11 k } := by
  obtain ⟨h1, h2, h3, h4, h5⟩ := h
  have h7 : ¬ (s.arch.vl < s.arch.vstart ∨ s.arch.vtype.vlmax < s.arch.vl) := by omega
  have h8 : ¬ (vm = false ∧ d.maskable = false) := by rcases h5 with h5 | h5 <;> simp [h5]
  simp only [execTemplate, h1, h4, hd, if_neg h7, if_neg h8, Bool.true_eq_false, if_false]

theorem execTemplate_mask (h : Executes s slot d vm vs2 f19 f11) (hd : d.dest = .mask) :
    execTemplate slot inst vm vs2 f19 f11 s =
      s.finish { s.arch with v := s.arch.updateMask s.params.zfinx slot d vm vs2 f19 f11 } := by
  obtain ⟨h1, h2, h3, h4, h5⟩ := h
  have h7 : ¬ (s.arch.vl < s.arch.vstart ∨ s.arch.vtype.vlmax < s.arch.vl) := by omega
  have h8 : ¬ (vm = false ∧ d.maskable = false) := by rcases h5 with h5 | h5 <;> simp [h5]
  simp only [execTemplate, h1, h4, hd, if_neg h7, if_neg h8, Bool.true_eq_false, if_false]

theorem execTemplate_scalar0 (h : Executes s slot d vm vs2 f19 f11) (hd : d.dest = .scalar0) :
    execTemplate slot inst vm vs2 f19 f11 s =
      s.finish { s.arch with v := s.arch.updateScalar0 s.params.zfinx slot d vm vs2 f19 f11 } := by
  obtain ⟨h1, h2, h3, h4, h5⟩ := h
  have h7 : ¬ (s.arch.vl < s.arch.vstart ∨ s.arch.vtype.vlmax < s.arch.vl) := by omega
  have h8 : ¬ (vm = false ∧ d.maskable = false) := by rcases h5 with h5 | h5 <;> simp [h5]
  simp only [execTemplate, h1, h4, hd, if_neg h7, if_neg h8, Bool.true_eq_false, if_false]

/-- Everything a completing template did: it met its conditions, and only `v`, `vstart` and `pc` may differ. -/
theorem execTemplate_next (h : execTemplate slot inst vm vs2 f19 f11 s = .next t) :
    ∃ d, Executes s slot d vm vs2 f19 f11 ∧
      ((∃ k, d.dest = .vgroup k ∧
          t = { s with arch := ({ s.arch with v := s.arch.updateGroup s.params.zfinx slot d vm vs2 f19 f11 k } : Arch s.geom).complete }) ∨
        (d.dest = .mask ∧
          t = { s with arch := ({ s.arch with v := s.arch.updateMask s.params.zfinx slot d vm vs2 f19 f11 } : Arch s.geom).complete }) ∨
        (d.dest = .scalar0 ∧
          t = { s with arch := ({ s.arch with v := s.arch.updateScalar0 s.params.zfinx slot d vm vs2 f19 f11 } : Arch s.geom).complete })) := by
  unfold execTemplate at h
  split at h
  · cases h
  · next d hd =>
    simp only at h
    split at h
    · cases h
    next h1 =>
      split at h
      · cases h
      next h2 =>
        split at h
        · cases h
        next h3 =>
          have hr : Executes s slot d vm vs2 f19 f11 :=
            ⟨hd, by omega, by omega, by simpa using h2, by cases hvm : vm <;> cases hmk : d.maskable <;> simp_all⟩
          refine ⟨d, hr, ?_⟩
          split at h
          · next k hk => exact .inl ⟨k, hk, by simpa [State.finish] using h.symm⟩
          · next hk => exact .inr (.inl ⟨hk, by simpa [State.finish] using h.symm⟩)
          · next hk => exact .inr (.inr ⟨hk, by simpa [State.finish] using h.symm⟩)
          · cases h

/-- The value of destination element `x` of a group after the update, as far as a register holds it (R180 to R183, R186, R118). -/
def groupResult (s : State) (slot : Slot) (d : Descriptor) (vm : Bool) (vs2 f19 vd : RegNum) (k x : Nat) :
    BitVec (s.arch.vtype.widened k) :=
  match elementClass s.arch.vstart s.arch.vl (s.arch.maskEnabled vm x) x with
  | .active =>
    BitVec.ofNat _ (s.arch.elemResult s.params.zfinx slot d vs2 f19 vd (s.arch.vtype.widened k) x % 2 ^ s.geom.vlen)
  | .tail =>
    if d.zeroesTail then 0 else elemRead s.arch.v vd.toNat (s.arch.vtype.widened k) (s.arch.vtype.groupSize k) x
  | .prestart | .inactive => elemRead s.arch.v vd.toNat (s.arch.vtype.widened k) (s.arch.vtype.groupSize k) x

/-- What the update makes of the elements of the group (R200 step 5): one that was given a value has what a register holds of it. -/
theorem elemRead_writeElems_any (t : VType s.geom) (hb : f11.toNat + t.groupSize k ≤ 32) (upd : Nat → Option (BitVec (t.widened k)))
    {x : Nat} (hx : x < t.vlmax) :
    elemRead (writeElems s.arch.v f11.toNat (t.widened k) (t.groupSize k) upd t.vlmax) f11.toNat (t.widened k) (t.groupSize k) x =
      ((upd x).map fun w => (w.setWidth s.geom.vlen).setWidth _).getD
        (elemRead s.arch.v f11.toNat (t.widened k) (t.groupSize k) x) := by
  rcases Nat.lt_or_ge s.geom.vlen (t.widened k) with h | h
  · have he := widened_gt h
    have hv := vlmax_le_groupSize h
    revert upd
    rw [widened_pow]
    intro upd
    rw [elemRead_wide he _ _ (by omega), readV_writeElems_wide he _ hb _ _ hv, if_pos (by omega), Nat.add_sub_cancel_left,
      elemRead_wide he _ _ (by omega)]
    cases upd x <;> rfl
  · have hv := vlmax_widened h
    have he := widened_le h
    have hlen : ∀ w : BitVec (t.widened k), (w.setWidth s.geom.vlen).setWidth _ = w := fun w => by
      rw [BitVec.setWidth_setWidth_of_le _ h, BitVec.setWidth_eq]
    simp only [hlen, Option.map_id']
    revert upd
    rw [widened_pow]
    intro upd
    rw [elemRead_writeElems he (groupSize_pos t k) hb _ _ _ (Nat.le_of_eq hv), if_pos hx]

theorem elemRead_updateGroup (h : Executes s slot d vm vs2 f19 f11) (hd : d.dest = .vgroup k) {x : Nat}
    (hx : x < s.arch.vtype.vlmax) :
    elemRead (s.arch.updateGroup s.params.zfinx slot d vm vs2 f19 f11 k) f11.toNat (s.arch.vtype.widened k) (s.arch.vtype.groupSize k) x =
      groupResult s slot d vm vs2 f19 f11 k x := by
  rw [Arch.updateGroup, elemRead_writeElems_any _ (dest_inside s.arch.vtype hd h.legal) _ hx, groupResult, Arch.elemUpdate]
  cases elementClass s.arch.vstart s.arch.vl (s.arch.maskEnabled vm x) x
  case active =>
    apply BitVec.eq_of_toNat_eq
    simp only [Option.map_some, Option.getD_some, BitVec.toNat_setWidth, BitVec.toNat_ofNat]
    rcases Nat.le_total (s.arch.vtype.widened k) s.geom.vlen with hw | hw
    · rw [Nat.mod_eq_of_lt (Nat.lt_of_lt_of_le (Nat.mod_lt _ (Nat.two_pow_pos _)) (Nat.pow_le_pow_right (by decide) hw)), Nat.mod_mod]
      exact (Nat.mod_mod_of_dvd _ (Nat.pow_dvd_pow 2 hw)).symm
    · rw [Nat.mod_mod_of_dvd _ (Nat.pow_dvd_pow 2 hw)]
  case tail => cases d.zeroesTail <;> simp
  all_goals rfl

theorem readV_updateGroup_outside {zfinx : Bool} {n : Nat} (hn : n < f11.toNat ∨ f11.toNat + s.arch.vtype.groupSize k ≤ n) :
    readV (s.arch.updateGroup zfinx slot d vm vs2 f19 f11 k) n = readV s.arch.v n := by
  have main : ∀ upd : Nat → Option (BitVec (s.arch.vtype.widened k)),
      readV (writeElems s.arch.v f11.toNat (s.arch.vtype.widened k) (s.arch.vtype.groupSize k) upd s.arch.vtype.vlmax) n =
        readV s.arch.v n := by
    rw [widened_pow]
    intro upd
    exact readV_writeElems_outside (groupSize_pos s.arch.vtype k) _ _ _ hn
  exact main _

/-- The mask element `x` of a mask destination after the update (R145, R147, R180 to R183). -/
def maskResult (s : State) (slot : Slot) (d : Descriptor) (vm : Bool) (vs2 f19 vd : RegNum) (x : Nat) : BitVec s.arch.vtype.mlen :=
  match elementClass s.arch.vstart s.arch.vl (s.arch.maskEnabled vm x) x with
  | .active => (BitVec.ofBool (decide (s.arch.elemResult s.params.zfinx slot d vs2 f19 vd 1 x % 2 = 1))).setWidth _
  | .tail => if d.zeroesTail then 0 else maskElemRead s.arch.v vd.toNat s.arch.vtype.mlen x
  | .prestart | .inactive => maskElemRead s.arch.v vd.toNat s.arch.vtype.mlen x

theorem maskElemRead_updateMask {x : Nat} (hx : x < s.arch.vtype.vlmax) :
    maskElemRead (s.arch.updateMask s.params.zfinx slot d vm vs2 f19 f11) f11.toNat s.arch.vtype.mlen x =
      maskResult s slot d vm vs2 f19 f11 x := by
  rw [Arch.updateMask, maskElemRead_writeMaskElems _ _ f11.isLt _ _ (Nat.le_refl _), if_pos hx, maskResult, Arch.elemUpdate]
  cases elementClass s.arch.vstart s.arch.vl (s.arch.maskEnabled vm x) x
  case tail => cases d.zeroesTail <;> simp
  all_goals rfl

theorem readV_updateMask_outside {zfinx : Bool} {n : Nat} (hn : n ≠ f11.toNat) :
    readV (s.arch.updateMask zfinx slot d vm vs2 f19 f11) n = readV s.arch.v n :=
  readV_writeMaskElems_outside _ _ _ _ _ hn

/-- Every bit of every register after a scalar result was written to element 0 (R161, R17). -/
theorem getLsbD_updateScalar0 {zfinx : Bool} (n j : Nat) :
    (readV (s.arch.updateScalar0 zfinx slot d vm vs2 f19 f11) n).getLsbD j =
      if n = f11.toNat ∧ j < s.arch.vtype.sew ∧ j < s.geom.vlen then
        (BitVec.ofNat s.arch.vtype.sew (s.arch.scalarResult zfinx slot d vm vs2 f19 f11)).getLsbD j
      else (readV s.arch.v n).getLsbD j := by
  rw [Arch.updateScalar0, readV_writeV]
  by_cases hn : n = f11.toNat
  · subst hn
    simp [getLsbD_setSlice, f11.isLt]
  · simp [hn]

end Sys2Proof.Laws
end

