-- ==== Sys2Proof/Laws/Step.lean ====
section
/-! SUPPORT. What exec and a step can do, said once: which instructions complete, and through what. -/

namespace Sys2Proof.Laws

open Config Machine Safety

/-- exec of an OP-V arithmetic instruction is the template with its slot and its own word (R212 to R218). -/
theorem exec_arith (c : Category) (f : BitVec 6) (vm : Bool) (vs2 f19 f11 : RegNum) (s : State) :
    exec (.arith c f vm vs2 f19 f11) s = execTemplate ⟨c, f⟩ (encode (.arith c f vm vs2 f19 f11)) vm vs2 f19 f11 s := by
  cases c <;> rfl

/-- An instruction is configuration, arithmetic, or a memory access that exec refuses. -/
theorem instr_cases (i : Instr) :
    (∃ z rs1 rd, i = .vsetvli z rs1 rd) ∨ (∃ rs2 rs1 rd, i = .vsetvl rs2 rs1 rd) ∨
      (∃ c f vm vs2 f19 f11, i = .arith c f vm vs2 f19 f11) ∨ ∀ s, exec i s = .refused .memorySemanticsNotInSource := by
  cases i with
  | vsetvli z rs1 rd => exact .inl ⟨z, rs1, rd, rfl⟩
  | vsetvl rs2 rs1 rd => exact .inr (.inl ⟨rs2, rs1, rd, rfl⟩)
  | opivv f vm a b c => exact .inr (.inr (.inl ⟨.opivv, f, vm, a, b, c, rfl⟩))
  | opfvv f vm a b c => exact .inr (.inr (.inl ⟨.opfvv, f, vm, a, b, c, rfl⟩))
  | opmvv f vm a b c => exact .inr (.inr (.inl ⟨.opmvv, f, vm, a, b, c, rfl⟩))
  | opivi f vm a b c => exact .inr (.inr (.inl ⟨.opivi, f, vm, a, b, c, rfl⟩))
  | opivx f vm a b c => exact .inr (.inr (.inl ⟨.opivx, f, vm, a, b, c, rfl⟩))
  | opfvf f vm a b c => exact .inr (.inr (.inl ⟨.opfvf, f, vm, a, b, c, rfl⟩))
  | opmvx f vm a b c => exact .inr (.inr (.inl ⟨.opmvx, f, vm, a, b, c, rfl⟩))
  | vload => exact .inr (.inr (.inr fun _ => rfl))
  | vstore => exact .inr (.inr (.inr fun _ => rfl))
  | vamo => exact .inr (.inr (.inr fun _ => rfl))

/-- A completed instruction is configuration or arithmetic, completed through the shared operation of its family. -/
theorem exec_next {i : Instr} {s t : State} (h : exec i s = .next t) :
    (∃ rs1 rd setting, vset rs1 rd setting s = .next t) ∨
      ∃ slot inst vm vs2 f19 f11, execTemplate slot inst vm vs2 f19 f11 s = .next t := by
  rcases instr_cases i with ⟨z, rs1, rd, rfl⟩ | ⟨rs2, rs1, rd, rfl⟩ | ⟨c, f, vm, vs2, f19, f11, rfl⟩ | hr
  · exact .inl ⟨_, _, _, h⟩
  · exact .inl ⟨_, _, _, h⟩
  · rw [exec_arith] at h
    exact .inr ⟨_, _, _, _, _, _, h⟩
  · rw [hr] at h
    cases h

/-- A completed instruction changes the registers alone, leaves `f` as it is, clears `vstart` and advances `pc` (R31, R63, R200 step 6,
R201); `vl` is at most VLMAX afterwards if it was before (R34). -/
theorem exec_frame {i : Instr} {s t : State} (h : exec i s = .next t) :
    ∃ a : Arch s.geom, t = { s with arch := a } ∧ a.f = s.arch.f ∧ a.vstart = 0 ∧ a.pc = s.arch.pc + BitVec.ofNat s.geom.xlen 4 ∧
      (s.arch.vl ≤ s.arch.vtype.vlmax → a.vl ≤ a.vtype.vlmax) := by
  rcases exec_next h with ⟨rs1, rd, setting, h⟩ | ⟨slot, inst, vm, vs2, f19, f11, h⟩
  · obtain ⟨r, -, hl, rfl⟩ := vset_next h
    exact ⟨_, rfl, by simp, by simp, by simp, fun _ => by simpa using hl⟩
  · obtain ⟨d, -, ⟨k, -, rfl⟩ | ⟨-, rfl⟩ | ⟨-, rfl⟩⟩ := execTemplate_next h <;> exact ⟨_, rfl, rfl, rfl, rfl, id⟩

/-- A completed step fetched a word, decoded it and completed it, and counts it as executed. -/
theorem step_next {s t : State} (h : step s = .next t) :
    ∃ w i u, s.fetch = some w ∧ decode s.params.vectorWidths w = .instr i ∧ exec i s = .next u ∧
      t = { u with executed := s.executed + 1 } := by
  unfold step at h
  split at h
  · cases h
  · next w hw =>
    split at h
    · next i hi =>
      cases hu : exec i s with
      | next u => exact ⟨w, i, u, hw, hi, hu, by simpa [hu] using h.symm⟩
      | fault e => simp [hu] at h
      | refused r => simp [hu] at h
    · cases h
    · cases h

end Sys2Proof.Laws
end

