-- ==== Sys2Proof/Tests/Slice0.lean ====
section
/-! SUPPORT. Tests of single steps and of the pure functions, with expected results from `95_test_vectors.md` and R90 or worked by hand
from the rules; then, for every statement with hypotheses, a concrete case that meets them. -/

open Sys2Proof Sys2Proof.Config Sys2Proof.Machine Sys2Proof.Safety

namespace Sys2Proof.Tests

/-! ### Small machines -/

/-- The widths 0, 5, 6, 7 mark vector instructions (G4, general knowledge). -/
def widths : VectorWidths := ⟨0b11100001#8, 0b11100001#8, 0b11100001#8⟩

/-- VLEN=64, ELEN=64, XLEN=FLEN=64, with SLEN of 8, 16, 32 or 64 bits. -/
def g64 (slenLog : Nat) (h : slenLog ≤ 3) : Geometry := ⟨3, 3, slenLog, 64, 64, by decide, h⟩

/-- VLEN=64, SLEN=32. -/
abbrev g32 : Geometry := g64 2 (by decide)

/-- VLEN=128, ELEN=32, SLEN=64 (program P3). -/
def g128 : Geometry := ⟨4, 2, 3, 64, 64, by decide, by decide⟩

def regs (g : Geometry) (fill : Nat) (l : List (Nat × Nat)) : VRegs g :=
  l.foldl (fun v p => writeV v p.1 (BitVec.ofNat _ p.2)) (Vector.replicate 32 (BitVec.ofNat _ fill))

/-- A machine with one descriptor, one word at `pc`, and `x10 = 4`, `x11 = 8`, `x1 = 7`, `f1 = 0x20`. -/
def machine (g : Geometry) (d : List (Slot × Descriptor)) (sewLog : Fin (g.elenLog + 1)) (lmul : Lmul) (vl vstart pc : Nat)
    (v : VRegs g) (w : Word) : State :=
  let a : Arch g := { Arch.reset g with vl := vl, vstart := vstart, vtype := ⟨sewLog, lmul⟩, v := v, pc := BitVec.ofNat _ pc }
  let a := ((a.writeX 10 (BitVec.ofNat _ 4)).writeX 11 (BitVec.ofNat _ 8)).writeX 1 (BitVec.ofNat _ 7)
  { geom := g, params := ⟨false, widths, d, .draft07, 2⟩, arch := { a with f := a.f.set 1 (BitVec.ofNat _ 0x20) },
    mem := Memory.writeWords [] g.xlen pc [w], program := [w], executed := 0 }

/-- The outcome of a step, as far as a test looks: vector register `n`. -/
def vAfter (n : Nat) : Host.Outcome State Fault Refusal → Option Nat
  | .next t => some (readV t.arch.v n).toNat
  | _ => none

def completes : Host.Outcome State Fault Refusal → Bool
  | .next _ => true
  | _ => false

/-- The fault, or the refusal, of a step. -/
def faultOf : Host.Outcome State Fault Refusal → Option Fault
  | .fault e => some e
  | _ => none

def refusalOf : Host.Outcome State Fault Refusal → Option Refusal
  | .refused r => some r
  | _ => none

/-- `vl`, SEW, LMUL, `vstart`, `pc` and `x5` after a step. -/
def controlAfter : Host.Outcome State Fault Refusal → Option (Nat × Nat × Nat × Nat × Nat × Nat)
  | .next t => some (t.arch.vl, t.arch.vtype.sew, t.arch.vtype.lmul.toNat, t.arch.vstart, t.arch.pc.toNat, (t.arch.readX 5).toNat)
  | _ => none

/-- Two group sources, a group destination, the example sum (P1). -/
def sumDesc (src1 : Src1) : Descriptor := ⟨true, true, .vgroup 0, .vgroup 0, src1, false, .exampleSum⟩

/-- The element index plus the scalar (P3). -/
def indexDesc : Descriptor := ⟨true, true, .vgroup 0, .none, .simm5, false, .exampleIndexPlus⟩

/-- The example compare with a mask destination (P4). -/
def lessDesc : Descriptor := ⟨true, true, .mask, .vgroup 0, .vgroup 0, false, .exampleLessUnsigned⟩

/-- Program P1 at VLEN=64, SLEN=32: SEW=16, LMUL=2, `vl`=6, `vstart`=1. -/
def p1With (d : Descriptor) (vl vstart : Nat) (w : Word) : State :=
  machine g32 [(⟨.opivv, 0⟩, d)] 1 .m2 vl vstart 0x1000
    (regs g32 0 [(0, 0x0101000101FEFF01), (2, 0x1005100410011000), (3, 0x1007100610031002), (4, 0xF050F040F010F000),
      (5, 0xF070F060F030F020), (6, 0xD0D5D0D4D0D1D0D0), (7, 0xD0D7D0D6D0D3D0D2)]) w

def p1 : State := p1With (sumDesc (.vgroup 0)) 6 1 0x00220357#32

/-- Program P1 with the same element values at SLEN=64. -/
def p1Slen64 : State :=
  machine (g64 3 (by decide)) [(⟨.opivv, 0⟩, sumDesc (.vgroup 0))] 1 .m2 6 1 0x1000
    (regs _ 0 [(0, 0x0101000101FEFF01), (2, 0x1003100210011000), (3, 0x1007100610051004), (4, 0xF030F020F010F000),
      (5, 0xF070F060F050F040), (6, 0xD0D3D0D2D0D1D0D0), (7, 0xD0D7D0D6D0D5D0D4)]) 0x00220357#32

/-- A run of P2: `pc`=0x2000, `vl`=4, SEW=16, the registers all zero. -/
def p2 (lmul : Lmul) (w : Word) : State :=
  machine g32 [(⟨.opivv, 0⟩, sumDesc (.vgroup 0))] 1 lmul 4 0 0x2000 (regs g32 0 []) w

/-- One word of any category under SEW=16, LMUL=2, `vl`=8 (VLMAX), unmasked unless the word says so; `v4`, `v5` hold 0x100 in every
element. -/
def one (c : Category) (d : Descriptor) (w : Word) : State :=
  machine g32 [(⟨c, 0⟩, d)] 1 .m2 8 0 0x2000 (regs g32 0 [(4, 0x0100010001000100), (5, 0x0100010001000100)]) w

/-- The same with `zfinx`. -/
def oneZfinx (c : Category) (d : Descriptor) (w : Word) : State :=
  let s := one c d w
  { s with params := { s.params with zfinx := true } }

/-! ### Well-formed instructions: an ill-formed term for each check (R84) -/

theorem test_vload_width_not_vector : (Instr.vload 0 0 true 0 10 2 4).wellFormed widths = false := by decide
theorem test_vstore_width_not_vector : (Instr.vstore 0 0 true 0 10 3 4).wellFormed widths = false := by decide
theorem test_vamo_width_not_vector : (Instr.vamo 1 true true 8 10 2 4).wellFormed widths = false := by decide
theorem test_vector_widths_well_formed :
    (Instr.vload 0 0 true 0 10 7 4).wellFormed widths = true ∧ (Instr.vstore 0 0 true 0 10 0 4).wellFormed widths = true ∧
      (Instr.vamo 1 true true 8 10 6 4).wellFormed widths = true := by decide

/-! ### Decoding: words laid out field by field from R72 to R78, equal to the words of R90 -/

theorem test_decode_vsetvli :
    (0b0#1 ++ 0b00000001010#11 ++ 0b01010#5 ++ 0b111#3 ++ 0b00101#5 ++ 0b1010111#7 : BitVec (1 + 11 + 5 + 3 + 5 + 7)) = 0x00A572D7#32 ∧
      decode widths 0x00A572D7#32 = .instr (.vsetvli 0x00A 10 5) := by decide
theorem test_decode_vsetvl :
    (0b1#1 ++ 0b000000#6 ++ 0b01011#5 ++ 0b01010#5 ++ 0b111#3 ++ 0b00101#5 ++ 0b1010111#7 : BitVec (1 + 6 + 5 + 5 + 3 + 5 + 7)) =
        0x80B572D7#32 ∧
      decode widths 0x80B572D7#32 = .instr (.vsetvl 11 10 5) := by decide
theorem test_decode_opivv :
    (0b000000#6 ++ 0b0#1 ++ 0b01100#5 ++ 0b10000#5 ++ 0b000#3 ++ 0b01000#5 ++ 0b1010111#7 : BitVec (6 + 1 + 5 + 5 + 3 + 5 + 7)) =
        0x00C80457#32 ∧
      decode widths 0x00C80457#32 = .instr (.opivv 0 false 12 16 8) := by decide
theorem test_decode_opfvv :
    (0b000000#6 ++ 0b1#1 ++ 0b00100#5 ++ 0b00001#5 ++ 0b001#3 ++ 0b00010#5 ++ 0b1010111#7 : BitVec (6 + 1 + 5 + 5 + 3 + 5 + 7)) =
        0x02409157#32 ∧
      decode widths 0x02409157#32 = .instr (.opfvv 0 true 4 1 2) := by decide
theorem test_decode_opmvv :
    (0b000000#6 ++ 0b1#1 ++ 0b00100#5 ++ 0b00001#5 ++ 0b010#3 ++ 0b00010#5 ++ 0b1010111#7 : BitVec (6 + 1 + 5 + 5 + 3 + 5 + 7)) =
        0x0240A157#32 ∧
      decode widths 0x0240A157#32 = .instr (.opmvv 0 true 4 1 2) := by decide
theorem test_decode_opivi :
    (0b111111#6 ++ 0b1#1 ++ 0b11111#5 ++ 0b11111#5 ++ 0b011#3 ++ 0b11111#5 ++ 0b1010111#7 : BitVec (6 + 1 + 5 + 5 + 3 + 5 + 7)) =
        0xFFFFBFD7#32 ∧
      decode widths 0xFFFFBFD7#32 = .instr (.opivi 63 true 31 0b11111 31) := by decide
theorem test_decode_opivx :
    (0b000000#6 ++ 0b0#1 ++ 0b00100#5 ++ 0b01011#5 ++ 0b100#3 ++ 0b00010#5 ++ 0b1010111#7 : BitVec (6 + 1 + 5 + 5 + 3 + 5 + 7)) =
        0x0045C157#32 ∧
      decode widths 0x0045C157#32 = .instr (.opivx 0 false 4 11 2) := by decide
theorem test_decode_opfvf :
    (0b000000#6 ++ 0b1#1 ++ 0b00100#5 ++ 0b00001#5 ++ 0b101#3 ++ 0b00010#5 ++ 0b1010111#7 : BitVec (6 + 1 + 5 + 5 + 3 + 5 + 7)) =
        0x0240D157#32 ∧
      decode widths 0x0240D157#32 = .instr (.opfvf 0 true 4 1 2) := by decide
theorem test_decode_opmvx :
    (0b000000#6 ++ 0b1#1 ++ 0b00100#5 ++ 0b00001#5 ++ 0b110#3 ++ 0b00010#5 ++ 0b1010111#7 : BitVec (6 + 1 + 5 + 5 + 3 + 5 + 7)) =
        0x0240E157#32 ∧
      decode widths 0x0240E157#32 = .instr (.opmvx 0 true 4 1 2) := by decide
theorem test_decode_vload :
    (0b000#3 ++ 0b000#3 ++ 0b1#1 ++ 0b00000#5 ++ 0b01010#5 ++ 0b111#3 ++ 0b00100#5 ++ 0b0000111#7 :
        BitVec (3 + 3 + 1 + 5 + 5 + 3 + 5 + 7)) = 0x02057207#32 ∧
      decode widths 0x02057207#32 = .instr (.vload 0 0 true 0 10 7 4) := by decide
theorem test_decode_vstore :
    (0b000#3 ++ 0b000#3 ++ 0b1#1 ++ 0b00000#5 ++ 0b01010#5 ++ 0b111#3 ++ 0b00100#5 ++ 0b0100111#7 :
        BitVec (3 + 3 + 1 + 5 + 5 + 3 + 5 + 7)) = 0x02057227#32 ∧
      decode widths 0x02057227#32 = .instr (.vstore 0 0 true 0 10 7 4) := by decide
theorem test_decode_vamo :
    (0b00001#5 ++ 0b1#1 ++ 0b1#1 ++ 0b01000#5 ++ 0b01010#5 ++ 0b110#3 ++ 0b00100#5 ++ 0b0101111#7 :
        BitVec (5 + 1 + 1 + 5 + 5 + 3 + 5 + 7)) = 0x0E85622F#32 ∧
      decode widths 0x0E85622F#32 = .instr (.vamo 1 true true 8 10 6 4) := by decide

/-- `95_test_vectors.md` 2.6: the illegal patterns and the words outside the formats. -/
theorem test_decode_rejects :
    decode widths 0x82B572D7#32 = .illegal ∧ decode widths 0xFE007057#32 = .illegal ∧ decode widths 0x00000033#32 = .notInThisSpec ∧
      decode widths 0x00002007#32 = .notInThisSpec := by decide

theorem test_decodeTableWord :
    decodeTableWord 32 0x00002007 = some (.vload 0 0 false 0 0 2 0) ∧ decodeTableWord 32 0xFE007057 = none := by decide

/-! ### The mapping, masks, legality and classes (`95_test_vectors.md` 2.1 to 2.4) -/

/-- VLEN=64, SLEN=32, SEW=16, LMUL=2, and SEW > SLEN at VLEN=256, SLEN=64, SEW=128, LMUL=4. -/
theorem test_elemLoc :
    (List.range 8).map (elemLoc 32 16 2) = [(0, 0), (0, 16), (1, 0), (1, 16), (0, 32), (0, 48), (1, 32), (1, 48)] ∧
      (List.range 8).map (elemLoc 64 128 4) = [(0, 0), (1, 0), (2, 0), (3, 0), (0, 128), (1, 128), (2, 128), (3, 128)] := by decide

theorem test_elemAt : elemAt 64 32 4 2 3 = 13 ∧ elemAt 64 32 4 0 2 = 8 := by decide

theorem test_mask_layout :
    (⟨1, .m4⟩ : VType g32).mlen = 4 ∧ (⟨1, .m4⟩ : VType g32).vlmax = 16 ∧
      (readV (maskElemWrite (regs g32 0xFFFFFFFFFFFFFFFF []) 3 8 2 true) 3).toNat = 0xFFFFFFFFFF01FFFF ∧
      maskBit (regs g32 0xFE0000 []) 3 8 2 = false ∧ maskBit (regs g32 0xFF0000 []) 3 8 2 = true := by decide

/-- The widened-destination table of 2.3. -/
theorem test_widened_destination :
    ([(1, 2), (1, 3), (2, 4), (2, 6), (4, 8), (4, 4), (8, 8), (8, 0)].map fun p => operandOk true p.1 ⟨p.2, .group 1, true⟩) =
        [true, false, true, false, true, false, false, false] ∧
      operandOk false 1 ⟨0, .group 1, true⟩ = true := by decide

theorem test_element_classes :
    (List.range 8).map (fun x => elementClass 1 6 ([true, true, false, true, true, false, true, true].getD x false) x) =
      [.prestart, .active, .inactive, .active, .active, .inactive, .tail, .tail] := by decide

/-! ### Single steps -/

/-- P1: the masked sum under striping, its control state, and the same elements at SLEN=64. -/
theorem test_opivv_p1 :
    vAfter 6 (step p1) = some 0xD0D500440011D0D0 ∧ vAfter 7 (step p1) = some 0x000000000033D0D2 ∧
      controlAfter (step p1) = some (6, 16, 2, 0, 0x1004, 0) ∧ vAfter 6 (step p1Slen64) = some 0x0033D0D20011D0D0 := by decide

/-- P4: the compare writes a mask; its two tail mask elements are zeroed. -/
theorem test_opivv_mask_p4 :
    vAfter 0 (step (machine g32 [(⟨.opivv, 26⟩, lessDesc)] 0 .m1 6 0 0x4004
      (regs g32 0xFFFFFFFFFFFFFFFF [(8, 0x02017FFF00108005), (9, 0x0909800001107F06)]) 0x6A848057#32)) =
      some 0x0000010001000001 := by decide

/-- P3: the index plus 0 under SLEN=64. -/
theorem test_opivi_p3 :
    vAfter 2 (step (machine g128 [(⟨.opivi, 63⟩, indexDesc)] 2 .m2 8 0 0x3000 (regs g128 0 []) 0xFE003157#32)) =
      some 0x00000005000000040000000100000000 := by decide

/-- R81: the word of R90 with `simm5` = -3; element `x` of `v6`, `v7` is `x - 3` modulo 2^16. -/
theorem test_opivi_negative :
    vAfter 6 (step (one .opivi indexDesc 0x022EB357#32)) = some 0x00020001FFFEFFFD ∧
      vAfter 7 (step (one .opivi indexDesc 0x022EB357#32)) = some 0x000400030000FFFF := by decide

/-- OPIVX with `x11` = 8, unmasked. -/
theorem test_opivx : vAfter 2 (step (one .opivx (sumDesc .xreg) 0x0245C157#32)) = some 0x0108010801080108 := by decide

/-- OPFVF with `f1` = 0x20, and with `zfinx` `x1` = 7 (R26). -/
theorem test_opfvf :
    vAfter 2 (step (one .opfvf (sumDesc .freg) 0x0240D157#32)) = some 0x0120012001200120 ∧
      vAfter 2 (step (oneZfinx .opfvf (sumDesc .freg) 0x0240D157#32)) = some 0x0107010701070107 := by decide

/-- OPMVX with `x1` = 7. -/
theorem test_opmvx : vAfter 2 (step (one .opmvx (sumDesc .xreg) 0x0240E157#32)) = some 0x0107010701070107 := by decide

/-- OPFVV and OPMVV with a second source read as element 0 of the odd register `v1` (zero), under LMUL=2 (R162). -/
theorem test_opfvv_scalar0 : vAfter 3 (step (one .opfvv (sumDesc .scalar0) 0x02409157#32)) = some 0x0100010001000100 := by decide
theorem test_opmvv_scalar0 : vAfter 2 (step (one .opmvv (sumDesc .scalar0) 0x0240A157#32)) = some 0x0100010001000100 := by decide

/-- OPMVV with its result in element 0 of `v4` (R161): it completes, and `v5`, of the same group under LMUL=2, is unchanged. -/
theorem test_opmvv_result_in_element_zero :
    let d : Descriptor := ⟨true, true, .scalar0, .vgroup 0, .scalar0, false, .notInSource⟩
    vAfter 5 (step (one .opmvv d 0x0240A257#32)) = some 0x0100010001000100 ∧
      controlAfter (step (one .opmvv d 0x0240A257#32)) = some (8, 16, 2, 0, 0x2004, 0) := by decide

/-- P3: `vsetvli x5, x10, e32,m1` with `x10` = 4. -/
theorem test_vsetvli_p3 :
    controlAfter (step (machine g128 [] 2 .m2 8 0 0x3004 (regs g128 0 []) 0x008572D7#32)) = some (4, 32, 1, 0, 0x3008, 4) := by decide

/-- The same setting from `x11` = 8 by `vsetvl`. -/
theorem test_vsetvl :
    controlAfter (step (machine g128 [] 2 .m2 8 3 0x3004 (regs g128 0 []) 0x80B572D7#32)) = some (4, 32, 1, 0, 0x3008, 4) := by decide

/-- P2, runs a, b, g, h: the illegal instruction exception. -/
theorem test_illegal_p2 :
    faultOf (step (p2 .m2 0x022203D7#32)) = some (.illegalInstruction 0x022203D7#32 0x2000 2) ∧
      faultOf (step (p2 .m2 0x00220057#32)) = some (.illegalInstruction 0x00220057#32 0x2000 2) ∧
      faultOf (step (p2 .m8 0x02C80457#32)) = some (.illegalInstruction 0x02C80457#32 0x2000 2) ∧
      faultOf (step (p2 .m2 0x82B572D7#32)) = some (.illegalInstruction 0x82B572D7#32 0x2000 2) := by decide

/-- P2, runs c, d, e, f: the same words are legal under another LMUL or unmasked. -/
theorem test_legal_p2 :
    completes (step (p2 .m1 0x00220057#32)) = true ∧ completes (step (p2 .m1 0x022203D7#32)) = true ∧
      completes (step (p2 .m2 0x02220057#32)) = true ∧ completes (step (p2 .m4 0x02C80457#32)) = true := by decide

/-- The refusals of `95_test_vectors.md` 2.5, and the memory classes. -/
theorem test_refusals :
    refusalOf (step (p1With (sumDesc (.vgroup 0)) 4 5 0x02220357#32)) = some .elementClassesOverlap ∧
      refusalOf (step (p1With ⟨false, true, .vgroup 0, .vgroup 0, .vgroup 0, false, .exampleSum⟩ 6 1 0x00220357#32)) = some .vmOnUnmaskable ∧
      refusalOf (step (p1With (sumDesc (.vgroup 0)) 6 1 0x04220357#32)) = some .semanticsNotInSource ∧
      refusalOf (step (p2 .m2 0x02057207#32)) = some .memorySemanticsNotInSource ∧
      refusalOf (step (p2 .m2 0x02057227#32)) = some .memorySemanticsNotInSource ∧
      refusalOf (step (p2 .m2 0x0E85622F#32)) = some .memorySemanticsNotInSource := by decide

/-- SEW=VLEN=64, LMUL=2 (VLMAX=2), a destination of twice SEW at `v4`: element `x` is the whole of register `4 + x` (R114, N53), and the
other two registers of the group keep their value (R118). -/
theorem test_destination_wider_than_register :
    let s := machine g32 [(⟨.opivi, 0⟩, { indexDesc with dest := .vgroup 1 })] 3 .m2 2 0 0x2000 (regs g32 9 []) 0x0200B257#32
    vAfter 4 (step s) = some 1 ∧ vAfter 5 (step s) = some 2 ∧ vAfter 6 (step s) = some 9 := by decide

/-- With `vl` = 0 a source wider than a register is not read, and the destination is zeroed (R188, R200). -/
theorem test_source_wider_than_register :
    let s := machine g32 [(⟨.opivv, 0⟩, ⟨true, true, .vgroup 0, .vgroup 1, .none, false, .exampleCopy⟩)] 3 .m1 0 0 0x2000
      (regs g32 9 []) 0x02800257#32
    vAfter 4 (step s) = some 0 ∧ vAfter 5 (step s) = some 9 := by decide

/-- The run ends when its list is exhausted, whatever memory holds at `pc` (R244). -/
theorem test_run_ends_with_its_list :
    faultOf (step { p1 with executed := 1 }) = some (.endOfProgram 0x1000) ∧
      p1.mem.read 64 0x1000 4 = some 0x00220357 := by decide

/-- From reset, a loaded word of every form that completes does complete. -/
theorem test_reset_runs_loaded_words :
    [0x00000057, 0x00001057, 0x00002057, 0x00003057, 0x00004057, 0x00005057, 0x00006057, 0x00007057, 0x80007057].all
      (fun w => completes (step (State.reset.withFetchWord 32 w))) = true := by decide

/-! ### Witnesses: for each statement with hypotheses, a case that meets them, at the bounds of each clause -/

theorem witness_EncodeThenDecodeReturnsInstruction :
    (Instr.vload 7 7 false 31 31 7 31).wellFormed widths = true ∧ (Instr.vstore 0 0 true 0 0 0 0).wellFormed widths = true ∧
      (Instr.vamo 31 false true 0 0 5 0).wellFormed widths = true ∧ (Instr.opivi 63 true 31 31 31).wellFormed widths = true := by decide

theorem witness_DecodedWordIsEncodingOfInstruction :
    decode widths 0x7FF07057#32 = .instr (.vsetvli 0x7FF 0 0) ∧ decode widths 0x0E85622F#32 = .instr (.vamo 1 true true 8 10 6 4) := by
  decide

theorem witness_VsetvliRowDecodesWithAllFields :
    0x7FF07057#32 &&& 0x8000707F#32 = 0x00007057#32 ∧ 0x00007057#32 &&& 0x8000707F#32 = 0x00007057#32 := by decide

theorem witness_VsetvlRowDecodesAndOthersAreIllegal :
    0x80B572D7#32 &&& 0xFE00707F#32 = 0x80007057#32 ∧
      (0x82B572D7#32 &&& 0x8000707F#32 = 0x80007057#32 ∧ (0x82B572D7#32).extractLsb' 25 6 ≠ 0#6) ∧
      (0xFE007057#32 &&& 0x8000707F#32 = 0x80007057#32 ∧ (0xFE007057#32).extractLsb' 25 6 ≠ 0#6) := by decide

/-- One function of `vm` for each of the four formats. -/
theorem witness_MaskingBitIsInstructionBit25 :
    (∃ c f vs2 f19 f11, (fun vm => Instr.opivv 0 vm 2 4 6) = fun vm => Instr.arith c f vm vs2 f19 f11) ∧
      (∃ nf mop f24 rs1 width vd, (fun vm => Instr.vload 0 0 vm 0 10 7 4) = fun vm => .vload nf mop vm f24 rs1 width vd) ∧
      (∃ nf mop f24 rs1 width vs3, (fun vm => Instr.vstore 0 0 vm 0 10 7 4) = fun vm => .vstore nf mop vm f24 rs1 width vs3) ∧
      ∃ amoop wd vs2 rs1 width vd, (fun vm => Instr.vamo 1 true vm 8 10 6 4) = fun vm => .vamo amoop wd vm vs2 rs1 width vd :=
  ⟨⟨.opivv, 0, 2, 4, 6, rfl⟩, ⟨0, 0, 0, 10, 7, 4, rfl⟩, ⟨0, 0, 0, 10, 7, 4, rfl⟩, ⟨1, true, 8, 10, 6, 4, rfl⟩⟩

/-- SEW=16, LMUL=2 at VLEN=64: the first and last index, the last register and slot. -/
theorem witness_ElementMappingIsBijective :
    0 < (⟨1, .m2⟩ : VType g32).vlmax ∧ 7 < (⟨1, .m2⟩ : VType g32).vlmax ∧ 1 < Lmul.m2.toNat ∧ 3 < g32.vlen / (⟨1, .m2⟩ : VType g32).sew := by
  decide

theorem witness_SingleRegisterElementsPackInOrder :
    (⟨1, .m1⟩ : VType g32).lmul = .m1 ∧ 3 < g32.vlen / (⟨1, .m1⟩ : VType g32).sew := by decide

theorem witness_StripesFillSegmentsRegisterByRegister :
    (⟨1, .m2⟩ : VType g32).sew ≤ g32.slen ∧ 1 < Lmul.m2.toNat ∧ 1 < g32.slen / (⟨1, .m2⟩ : VType g32).sew ∧
      (⟨2, .m8⟩ : VType g32).sew ≤ g32.slen ∧ 7 < Lmul.m8.toNat ∧ 0 < g32.slen / (⟨2, .m8⟩ : VType g32).sew := by decide

theorem witness_WideElementsAlternateBetweenRegisters : g32.slen < (⟨3, .m4⟩ : VType g32).sew := by decide

theorem witness_EqualRatioElementsShareSegment :
    (⟨0, .m1⟩ : VType g32).sew * Lmul.m4.toNat = (⟨2, .m4⟩ : VType g32).sew * Lmul.m1.toNat ∧ (⟨0, .m1⟩ : VType g32).sew ≤ g32.slen ∧
      (⟨2, .m4⟩ : VType g32).sew ≤ g32.slen ∧ 7 < (⟨0, .m1⟩ : VType g32).vlmax := by decide

theorem witness_DoubleWidthViewPairsElements :
    (⟨2, .m1⟩ : VType g32).sew = 2 * (⟨1, .m1⟩ : VType g32).sew ∧ 1 < (⟨2, .m1⟩ : VType g32).vlmax ∧ 15 < (⟨1, .m1⟩ : VType g32).sew := by
  decide

theorem witness_OperatingPointsKeepTheRatio :
    0 < 8 ∧ operatingLmul 64 8 = some .m8 ∧ operatingLmul 8 8 = some .m1 ∧ operatingLmul 128 8 = none := by decide

theorem witness_MaskElementWriteAndRead : 31 < 32 ∧ 0 < (⟨1, .m2⟩ : VType g32).vlmax ∧ 7 < (⟨1, .m2⟩ : VType g32).vlmax := by decide

theorem witness_EqualRatioSharesPredicateBits :
    (⟨0, .m1⟩ : VType g32).sew * Lmul.m8.toNat = (⟨3, .m8⟩ : VType g32).sew * Lmul.m1.toNat := by decide

theorem witness_EqualRatioKeepsElementCount :
    (⟨1, .m2⟩ : VType g32).sew * Lmul.m4.toNat = (⟨2, .m4⟩ : VType g32).sew * Lmul.m2.toNat := by decide

/-- Program P1 (`vstart`=1, `vl`=6, VLMAX=8): an index of each class, on both sides of both bounds. -/
theorem witness_ElementClassFormulas :
    p1.arch.vstart ≤ p1.arch.vl ∧ 7 < p1.arch.vtype.vlmax ∧
      [0, 1, 5, 6].map (fun x => elementClass p1.arch.vstart p1.arch.vl (p1.arch.maskEnabled false x) x) =
        [.prestart, .active, .inactive, .tail] := by decide

theorem executes_p1 : Executes p1 ⟨.opivv, 0⟩ (sumDesc (.vgroup 0)) false 2 4 6 :=
  ⟨by decide, by decide, by decide, by decide, by decide⟩

/-- A mask destination, `vl` = 6 of 8 elements, masked. -/
def maskDestination : State := p1With lessDesc 6 1 0x00220357#32

theorem executes_maskDestination : Executes maskDestination ⟨.opivv, 0⟩ lessDesc false 2 4 6 :=
  ⟨by decide, by decide, by decide, by decide, by decide⟩

def keepsTail (d : Descriptor) : Descriptor := { d with zeroesTail := false }

/-- A group destination for each of the seven categories, the element function the free value. -/
theorem witness_ArithmeticCompletesOnGroups (c : Category) :
    Executes (one c (plainDescriptor c) 0) ⟨c, 0⟩ (plainDescriptor c) true 4 2 6 ∧ (plainDescriptor c).dest = .vgroup 0 := by
  cases c <;> exact ⟨⟨by decide, by decide, by decide, by decide, by decide⟩, rfl⟩

/-- An element of each class, with the tail zeroed and with the tail kept. -/
theorem witness_ArithmeticCompletesOnGroups_classes :
    (List.range 8).map (fun x => elementClass p1.arch.vstart p1.arch.vl (p1.arch.maskEnabled false x) x) =
        [.prestart, .active, .inactive, .active, .active, .inactive, .tail, .tail] ∧
      p1.arch.vtype.vlmax = 8 ∧ (sumDesc (.vgroup 0)).zeroesTail = true ∧
      Executes (p1With (keepsTail (sumDesc (.vgroup 0))) 6 1 0) ⟨.opivv, 0⟩ (keepsTail (sumDesc (.vgroup 0))) false 2 4 6 :=
  ⟨by decide, by decide, rfl, by decide, by decide, by decide, by decide, by decide⟩

/-- A mask destination for each of the seven categories. -/
theorem witness_ArithmeticCompletesOnMasks (c : Category) :
    Executes (one c { plainDescriptor c with dest := .mask } 0) ⟨c, 0⟩ { plainDescriptor c with dest := .mask } true 4 2 6 := by
  cases c <;> exact ⟨by decide, by decide, by decide, by decide, by decide⟩

theorem witness_ArithmeticCompletesOnMasks_classes :
    (List.range 8).map (fun x => elementClass maskDestination.arch.vstart maskDestination.arch.vl
        (maskDestination.arch.maskEnabled false x) x) =
        [.prestart, .active, .inactive, .active, .active, .inactive, .tail, .tail] ∧
      Executes (p1With (keepsTail lessDesc) 6 1 0) ⟨.opivv, 0⟩ (keepsTail lessDesc) false 2 4 6 :=
  ⟨by decide, by decide, by decide, by decide, by decide, by decide⟩

/-- A scalar in element 0 of the odd register `v7` under LMUL=2, for each of the seven categories. -/
theorem witness_ScalarResultIsWrittenToElementZero (c : Category) :
    Executes (one c { plainDescriptor c with dest := .scalar0 } 0) ⟨c, 0⟩ { plainDescriptor c with dest := .scalar0 } true 4 2 7 := by
  cases c <;> exact ⟨by decide, by decide, by decide, by decide, by decide⟩

/-- `simm5` at both ends of both signs under SEW=16: 0, 15, -16 and -1. -/
theorem witness_OperandsAndResultOfAnElement :
    [(0 : RegNum), 15, 16, 31].map (fun n => (p2 .m1 0).arch.source1 false .simm5 n 0) =
        [some 0, some 15, some 0xFFF0, some 0xFFFF] ∧
      (plainDescriptor .opivi).fn = .notInSource := by decide

theorem witness_CategoryFixesOperandKinds :
    descFor p1.params.desc ⟨.opivv, 0⟩ = some (sumDesc (.vgroup 0)) ∧ (plainDescriptor .opivi).fn = .notInSource ∧
      FieldsName .opivi (plainDescriptor .opivi) :=
  ⟨by decide, rfl, by decide, by decide, by decide, by simp [plainDescriptor], by decide⟩

/-- A write of `f31`, and with `zfinx` of `x31` and of `x0`. -/
theorem witness_FloatRegisterWriteAndRead :
    (p1.arch.writeScalarF false 31 9).scalarF false 31 = 9 ∧ (p1.arch.writeScalarF true 31 9).scalarF true 31 = 9 ∧
      (p1.arch.writeScalarF true 0 9).scalarF true 0 = 0 := by decide

theorem witness_PrestartAndInactiveElementsKeepTheirValue :
    Executes p1 ⟨.opivv, 0⟩ (sumDesc (.vgroup 0)) false 2 4 6 ∧ 0 < p1.arch.vstart ∧
      (p1.arch.vstart ≤ 5 ∧ 5 < p1.arch.vl ∧ p1.arch.maskEnabled false 5 = false) :=
  ⟨executes_p1, by decide, by decide⟩

theorem witness_TailElementsAreZeroed :
    Executes p1 ⟨.opivv, 0⟩ (sumDesc (.vgroup 0)) false 2 4 6 ∧ p1.arch.vl ≤ 6 ∧ 7 < p1.arch.vtype.vlmax :=
  ⟨executes_p1, by decide, by decide⟩

theorem witness_MaskBitsPastVectorLengthAreZero :
    Executes maskDestination ⟨.opivv, 0⟩ lessDesc false 2 4 6 ∧ lessDesc.dest = .mask ∧ lessDesc.zeroesTail = true ∧
      maskDestination.arch.vtype.mlen * maskDestination.arch.vl ≤ 48 :=
  ⟨executes_maskDestination, rfl, rfl, by decide⟩

/-- P1 at SLEN=32 and at SLEN=64, the same elements in different register images. -/
theorem witness_ResultElementsDoNotDependOnStriping :
    Executes p1 ⟨.opivv, 0⟩ (sumDesc (.vgroup 0)) false 2 4 6 ∧ SameButStriping p1 p1Slen64 (sumDesc (.vgroup 0)) 2 4 6 ∧
      p1Slen64.geom.slen ≠ p1.geom.slen :=
  ⟨executes_p1, ⟨by decide, by decide, by decide, by decide, by decide, by decide, by decide, by decide, by decide, by decide⟩, by decide⟩

/-- One that completes, one that faults (`vd`=3 under LMUL=2) and one that is refused (no descriptor). -/
theorem witness_ZfinxNeverReadsFloatRegisters :
    (oneZfinx .opfvf (sumDesc .freg) 0).params.zfinx = true ∧
      completes (exec (.arith .opfvf 0 true 4 1 2) (oneZfinx .opfvf (sumDesc .freg) 0)) = true ∧
      faultOf (exec (.arith .opfvf 0 true 4 1 3) (oneZfinx .opfvf (sumDesc .freg) 0)) =
        some (.illegalInstruction (encode (.arith .opfvf 0 true 4 1 3)) 0x2000 2) ∧
      refusalOf (exec (.arith .opfvf 1 true 4 1 2) (oneZfinx .opfvf (sumDesc .freg) 0)) = some .semanticsNotInSource := by decide

/-- LMUL=4: a destination at `v6`, and a source at `v2`. -/
theorem witness_RegisterNotLowestOfItsGroupIsIllegal :
    descFor (p2 .m4 0).params.desc ⟨.opivv, 0⟩ = some (sumDesc (.vgroup 0)) ∧ (p2 .m4 0).arch.vstart ≤ (p2 .m4 0).arch.vl ∧
      (p2 .m4 0).arch.vl ≤ (p2 .m4 0).arch.vtype.vlmax ∧
      (⟨6, .group 0, true⟩ : Operand) ∈ vectorOperands (sumDesc (.vgroup 0)) 2 4 6 ∧
      (⟨2, .group 0, false⟩ : Operand) ∈ vectorOperands (sumDesc (.vgroup 0)) 2 4 6 ∧
      6 % (p2 .m4 0).arch.vtype.lmul.toNat ≠ 0 ∧ 2 % (p2 .m4 0).arch.vtype.lmul.toNat ≠ 0 := by decide

/-- A destination of twice SEW. -/
def wideDesc : Descriptor := ⟨true, true, .vgroup 1, .vgroup 0, .vgroup 0, false, .exampleSum⟩

def wide (lmul : Lmul) : State :=
  machine g32 [(⟨.opivv, 0⟩, wideDesc)] 1 lmul 4 0 0x2000 (regs g32 0 []) 0

/-- LMUL=8 (a group of 16), and LMUL=2 with the destination at `v6` (6 mod 4). -/
theorem witness_WidenedGroupTooLargeOrMisalignedIsIllegal :
    (descFor (wide .m8).params.desc ⟨.opivv, 0⟩ = some wideDesc ∧ (wide .m8).arch.vstart ≤ (wide .m8).arch.vl ∧
        (wide .m8).arch.vl ≤ (wide .m8).arch.vtype.vlmax ∧ (⟨8, .group 1, true⟩ : Operand) ∈ vectorOperands wideDesc 16 24 8 ∧
        8 < 2 ^ 1 * (wide .m8).arch.vtype.lmul.toNat) ∧
      (descFor (wide .m2).params.desc ⟨.opivv, 0⟩ = some wideDesc ∧ (⟨6, .group 1, true⟩ : Operand) ∈ vectorOperands wideDesc 16 24 6 ∧
        6 % (2 ^ 1 * (wide .m2).arch.vtype.lmul.toNat) ≠ 0) := by decide

/-- LMUL=2, `vd`=0, masked, a group and a mask destination; and the group sizes that the other clauses cover. -/
theorem witness_MaskedDestinationOverMaskRegisterIsIllegal :
    (descFor (p2 .m2 0).params.desc ⟨.opivv, 0⟩ = some (sumDesc (.vgroup 0)) ∧ (p2 .m2 0).arch.vstart ≤ (p2 .m2 0).arch.vl ∧
        (p2 .m2 0).arch.vl ≤ (p2 .m2 0).arch.vtype.vlmax ∧ (sumDesc (.vgroup 0)).dest = .vgroup 0 ∧
        1 < (p2 .m2 0).arch.vtype.lmul.toNat) ∧
      (descFor maskDestination.params.desc ⟨.opivv, 0⟩ = some lessDesc ∧ maskDestination.arch.vstart ≤ maskDestination.arch.vl ∧
        maskDestination.arch.vl ≤ maskDestination.arch.vtype.vlmax ∧ lessDesc.dest = .mask ∧
        1 < maskDestination.arch.vtype.lmul.toNat) ∧
      (0 ≤ 3 ∧ 3 ≤ 3) ∧ 2 ^ 2 * Lmul.m2.toNat ≤ 8 ∧ 2 ^ 0 * Lmul.m8.toNat ≤ 8 := by decide

/-- Each of the three conditions: a group of 16 registers, `v7` under LMUL=2, a masked mask destination at `v0`; and the case of none. -/
theorem witness_IllegalExactlyWhenOperandChecksFail :
    (descFor (p2 .m2 0).params.desc ⟨.opivv, 0⟩ = some (sumDesc (.vgroup 0)) ∧ (p2 .m2 0).arch.vstart ≤ (p2 .m2 0).arch.vl ∧
        (p2 .m2 0).arch.vl ≤ (p2 .m2 0).arch.vtype.vlmax) ∧
      ((⟨8, .group 1, true⟩ : Operand) ∈ vectorOperands wideDesc 16 24 8 ∧ 8 < 2 ^ 1 * (wide .m8).arch.vtype.lmul.toNat) ∧
      ((⟨7, .group 0, true⟩ : Operand) ∈ vectorOperands (sumDesc (.vgroup 0)) 2 4 7 ∧ 7 % (2 ^ 0 * (p2 .m2 0).arch.vtype.lmul.toNat) ≠ 0) ∧
      ((⟨0, .mask, true⟩ : Operand) ∈ vectorOperands lessDesc 2 4 0 ∧ 1 < maskDestination.arch.vtype.lmul.toNat) ∧
      completes (exec (.opivv 0 true 2 4 6) (p2 .m2 0)) = true := by decide

theorem witness_OnlyFailedOperandChecksFault :
    faultOf (exec (.opivv 0 true 2 4 7) (p2 .m2 0)) = some (.illegalInstruction 0x022203D7#32 0x2000 2) := by decide

theorem witness_SlotWithoutDescriptorIsRefused : descFor (p2 .m2 0).params.desc ⟨.opivv, 1⟩ = none := by decide

theorem witness_StartBeyondVectorLengthIsRefused :
    descFor (p1With (sumDesc (.vgroup 0)) 4 5 0).params.desc ⟨.opivv, 0⟩ = some (sumDesc (.vgroup 0)) ∧
      (p1With (sumDesc (.vgroup 0)) 4 5 0).arch.vl < (p1With (sumDesc (.vgroup 0)) 4 5 0).arch.vstart := by decide

def unmaskable : Descriptor := ⟨false, true, .vgroup 0, .vgroup 0, .vgroup 0, false, .exampleSum⟩

theorem witness_MaskedUnmaskableIsRefused :
    descFor (p1With unmaskable 6 1 0).params.desc ⟨.opivv, 0⟩ = some unmaskable ∧
      (p1With unmaskable 6 1 0).arch.vstart ≤ (p1With unmaskable 6 1 0).arch.vl ∧
      (p1With unmaskable 6 1 0).arch.vl ≤ (p1With unmaskable 6 1 0).arch.vtype.vlmax ∧
      checkOperands false (p1With unmaskable 6 1 0).arch.vtype.lmul.toNat (vectorOperands unmaskable 2 4 6) = true ∧
      unmaskable.maskable = false := by decide

/-- A scalar destination in each category that can have one (R213, R214, R218). -/
theorem witness_ScalarDestinationIsRefused :
    Executes (one .opfvv { plainDescriptor .opfvv with dest := .scalar } 0) ⟨.opfvv, 0⟩ { plainDescriptor .opfvv with dest := .scalar }
        true 4 2 7 ∧
      Executes (one .opmvv { plainDescriptor .opmvv with dest := .scalar } 0) ⟨.opmvv, 0⟩ { plainDescriptor .opmvv with dest := .scalar }
        true 4 2 7 ∧
      Executes (one .opmvx { plainDescriptor .opmvx with dest := .scalar } 0) ⟨.opmvx, 0⟩ { plainDescriptor .opmvx with dest := .scalar }
        true 4 2 7 :=
  ⟨⟨by decide, by decide, by decide, by decide, by decide⟩, ⟨by decide, by decide, by decide, by decide, by decide⟩,
    ⟨by decide, by decide, by decide, by decide, by decide⟩⟩

/-- SEW=64 at VLEN=64, a destination of twice SEW: LMUL=4 (VLMAX=4), one element of each class, with the tail zeroed and kept. -/
def wideElements (d : Descriptor) : State :=
  machine g32 [(⟨.opivv, 0⟩, d)] 3 .m4 3 1 0x2000 (regs g32 0 [(0, 0x00010001)]) 0

theorem witness_WideElementsCompleteInWholeRegisters :
    Executes (wideElements wideDesc) ⟨.opivv, 0⟩ wideDesc false 16 24 8 ∧
      Executes (wideElements (keepsTail wideDesc)) ⟨.opivv, 0⟩ (keepsTail wideDesc) false 16 24 8 ∧
      (wideElements wideDesc).geom.vlen < (wideElements wideDesc).arch.vtype.widened 1 ∧
      (List.range 4).map (fun x => elementClass 1 3 ((wideElements wideDesc).arch.maskEnabled false x) x) =
        [.prestart, .active, .inactive, .tail] ∧
      3 < (wideElements wideDesc).arch.vtype.vlmax :=
  ⟨⟨by decide, by decide, by decide, by decide, by decide⟩, ⟨by decide, by decide, by decide, by decide, by decide⟩, by decide,
    by decide, by decide⟩

/-- Both instructions from reset; and an answer within the legal range, which the fit takes as it is. -/
theorem witness_OpenConfigurationCompletes :
    State.reset.params.vsetEffect = .open_ ∧ Configures State.reset (.vsetvli 0x008 10 5) 10 5 0x008 ∧
      Configures State.reset (.vsetvl 11 10 0) 10 0 0 ∧
      (fitVset g32 ⟨3, .m8, 8, 8⟩).vtype.sew = 64 ∧ (fitVset g32 ⟨3, .m8, 8, 8⟩).vl = 8 :=
  ⟨rfl, .inl ⟨_, rfl, rfl⟩, .inr ⟨11, rfl, rfl⟩, by decide, by decide⟩

/-- A machine of P2 with `x11` = `w`. -/
def settingInX11 (w : Nat) : State :=
  let s := p2 .m1 0
  { s with arch := s.arch.writeX 11 (BitVec.ofNat _ w) }

/-- ELEN=64: the smallest setting in `vsetvli`, the largest in `vsetvl`. -/
theorem witness_Draft07ConfigurationResult :
    ((p2 .m1 0).params.vsetEffect = .draft07 ∧ Configures (p2 .m1 0) (.vsetvli 0x000 10 5) 10 5 0 ∧
        8 * 2 ^ (0 / 4 % 8) ≤ (p2 .m1 0).geom.elen ∧ 0 < 32) ∧
      ((settingInX11 0x0F).params.vsetEffect = .draft07 ∧ Configures (settingInX11 0x0F) (.vsetvl 11 0 5) 0 5 0x0F ∧
        8 * 2 ^ (0x0F / 4 % 8) ≤ (settingInX11 0x0F).geom.elen ∧ 0x0F < 32) :=
  ⟨⟨rfl, .inl ⟨0x000, rfl, rfl⟩, by decide, by decide⟩, rfl, .inr ⟨11, rfl, by decide⟩, by decide, by decide⟩

/-- SEW=128 above ELEN=64 and bit 5 set in `vsetvli`; in `vsetvl` SEW=128 and a bit above bit 10. -/
theorem witness_Draft07RefusesUnrepresentableSetting :
    ((p2 .m1 0).params.vsetEffect = .draft07 ∧ Configures (p2 .m1 0) (.vsetvli 0x010 10 5) 10 5 0x010 ∧
        (p2 .m1 0).geom.elen < 8 * 2 ^ (0x010 / 4 % 8)) ∧
      (Configures (p2 .m1 0) (.vsetvli 0x020 10 5) 10 5 0x020 ∧ 32 ≤ 0x020) ∧
      ((settingInX11 0x10).params.vsetEffect = .draft07 ∧ Configures (settingInX11 0x10) (.vsetvl 11 10 5) 10 5 0x10 ∧
        (settingInX11 0x10).geom.elen < 8 * 2 ^ (0x10 / 4 % 8)) ∧
      (settingInX11 0x10000).params.vsetEffect = .draft07 ∧ Configures (settingInX11 0x10000) (.vsetvl 11 10 5) 10 5 0x10000 ∧
        32 ≤ 0x10000 :=
  ⟨⟨rfl, .inl ⟨0x010, rfl, rfl⟩, by decide⟩, ⟨.inl ⟨0x020, rfl, rfl⟩, by decide⟩,
    ⟨rfl, .inr ⟨11, rfl, by decide⟩, by decide⟩, rfl, .inr ⟨11, rfl, by decide⟩, by decide⟩

theorem witness_ConfigurationChangesNoVectorRegister :
    completes (exec (.vsetvli 0x009 10 5) p1) = true ∧ completes (exec (.vsetvl 11 10 5) p1) = true := by decide

/-- `x11` = 8 and `zimm` = 8. -/
theorem witness_RegisterAndImmediateSettingsAgree : (p1.arch.readX 11).toNat = (0x008#11).toNat := by decide

/-- A word that completes, one that faults and one that is refused. -/
theorem witness_StepRunsDecodedInstruction :
    (p1.fetch = some 0x00220357#32 ∧ decode p1.params.vectorWidths 0x00220357#32 = .instr (.opivv 0 false 2 4 6) ∧
        completes (exec (.opivv 0 false 2 4 6) p1) = true) ∧
      ((p2 .m2 0x022203D7#32).fetch = some 0x022203D7#32 ∧
        decode (p2 .m2 0x022203D7#32).params.vectorWidths 0x022203D7#32 = .instr (.opivv 0 true 2 4 7) ∧
        faultOf (exec (.opivv 0 true 2 4 7) (p2 .m2 0x022203D7#32)) = some (.illegalInstruction 0x022203D7#32 0x2000 2)) ∧
      ((p2 .m2 0x02057207#32).fetch = some 0x02057207#32 ∧
        decode (p2 .m2 0x02057207#32).params.vectorWidths 0x02057207#32 = .instr (.vload 0 0 true 0 10 7 4)) := by decide

theorem witness_StepStopsWithoutAnInstruction :
    State.reset.fetch = none ∧
      ((p2 .m1 0x82B572D7#32).fetch = some 0x82B572D7#32 ∧ decode (p2 .m1 0x82B572D7#32).params.vectorWidths 0x82B572D7#32 = .illegal) ∧
      ((p2 .m1 0x00000033#32).fetch = some 0x00000033#32 ∧
        decode (p2 .m1 0x00000033#32).params.vectorWidths 0x00000033#32 = .notInThisSpec) := by decide

theorem witness_IllegalInstructionCarriesFetchedWord :
    faultOf (step (p2 .m2 0x022203D7#32)) = some (.illegalInstruction 0x022203D7#32 0x2000 2) ∧
      faultOf (step (p2 .m2 0x82B572D7#32)) = some (.illegalInstruction 0x82B572D7#32 0x2000 2) := by decide

theorem witness_CompletedStepAdvancesAndKeepsTheRest :
    completes (step p1) = true ∧ completes (step (p2 .m1 0x008572D7#32)) = true := by decide

theorem stateInv_p1 : StateInv p1 := by
  unfold StateInv
  decide

theorem textPlaced_p1 : TextPlaced p1 := by
  intro k w h
  match k with
  | 0 =>
    obtain rfl : 0x00220357#32 = w := by simpa [p1, p1With, machine] using h
    decide
  | k + 1 => simp [p1, p1With, machine] at h

theorem witness_StepKeepsInvariant : StateInv p1 ∧ TextPlaced p1 ∧ completes (step p1) = true :=
  ⟨stateInv_p1, textPlaced_p1, by decide⟩

theorem witness_FetchedWordIsInMemoryAtPc : TextPlaced p1 ∧ p1.fetch = some 0x00220357#32 := ⟨textPlaced_p1, by decide⟩

/-- A program of three words, and one that fills an address space of 4 bits. -/
theorem witness_LoadedProgramIsFetchedInOrder :
    (4 * [0xFE003157#32, 0x008572D7#32, 0x06300257#32].length ≤ 2 ^ State.reset.geom.xlen ∧
        2 < [0xFE003157#32, 0x008572D7#32, 0x06300257#32].length) ∧
      4 * (List.replicate 4 0x00007057#32).length ≤ 2 ^ (⟨3, 3, 2, 4, 64, by decide, by decide⟩ : Geometry).xlen := by decide

/-- No step of a run, and the whole of a run of one word. -/
theorem witness_RunExecutesItsListOnceAndEnds :
    StepsTo 0 (p1.loadProgram [0x00220357#32]) (p1.loadProgram [0x00220357#32]) ∧
      ∃ t, StepsTo 1 (p1.loadProgram [0x00220357#32]) t ∧ Final t := by
  refine ⟨rfl, ?_⟩
  have h : completes (step (p1.loadProgram [0x00220357#32])) = true := by decide
  cases ht : step (p1.loadProgram [0x00220357#32]) with
  | next t =>
    obtain ⟨w, i, u, -, -, hu, rfl⟩ := Laws.step_next ht
    obtain ⟨a, rfl, -⟩ := Laws.exec_frame hu
    exact ⟨_, ⟨_, ht, rfl⟩, rfl⟩
  | fault e => simp [ht, completes] at h
  | refused r => simp [ht, completes] at h

theorem witness_LoadingKeepsInvariant : StateInv p1 := stateInv_p1

end Sys2Proof.Tests
end

section
/-! PROOFS. The scalar write `f[i] <- w` (R17): what a register reads as afterwards, and its frame, with and without `zfinx`. -/

namespace Sys2Proof.Proofs

open Config Machine Laws

section

variable {g : Geometry} (a : Arch g) (i j : RegNum) (w : Nat)

@[simp] theorem scalarF_zfinx : a.scalarF true i = (a.readX i).toNat := rfl
@[simp] theorem scalarF_float : a.scalarF false i = (a.readF i).toNat := rfl
@[simp] theorem writeScalarF_zfinx : a.writeScalarF true i w = a.writeX i (BitVec.ofNat g.xlen w) := rfl
@[simp] theorem writeScalarF_float : a.writeScalarF false i w = a.writeF i (BitVec.ofNat g.flen w) := rfl

/-- A write of `x[i]` changes the `x` file alone (R24). -/
theorem writeX_changes_only_x (u : BitVec g.xlen) : a.writeX i u = { a with x := (a.writeX i u).x } := by
  unfold Arch.writeX
  split <;> rfl

/-- A write of `f[i]` changes the `f` file alone (R25). -/
theorem writeF_changes_only_f (u : BitVec g.flen) : a.writeF i u = { a with f := (a.writeF i u).f } := rfl

/-- With `zfinx` the register written and read is `x[i]`, and `x0` stays zero (R26, D4). -/
theorem scalarF_writeScalarF_zfinx :
    (a.writeScalarF true i w).scalarF true j = if j = i then (if i = 0 then 0 else w % 2 ^ g.xlen) else a.scalarF true j := by
  rw [writeScalarF_zfinx, scalarF_zfinx]
  split
  · next hji =>
    subst hji
    split
    · next hj =>
      subst hj
      rw [readX_zero]
      exact BitVec.toNat_zero
    · next hj => rw [readX_writeX_same a j _ hj, BitVec.toNat_ofNat]
  · next hji => rw [readX_writeX_other a i _ j hji, scalarF_zfinx]

/-- Without `zfinx` the register written and read is `f[i]`, `f[0]` included (R17, R25). -/
theorem scalarF_writeScalarF_float :
    (a.writeScalarF false i w).scalarF false j = if j = i then w % 2 ^ g.flen else a.scalarF false j := by
  rw [writeScalarF_float, scalarF_float, readF_writeF]
  split
  · exact BitVec.toNat_ofNat w g.flen
  · rfl

end

/-- Settles O27, by the read-after-write rule and the frame of the register file that `zfinx` selects. -/
theorem floatRegisterWriteAndRead : Obligations.FloatRegisterWriteAndRead := by
  intro g a zfinx i j w
  cases zfinx with
  | true =>
    exact ⟨by simpa only [if_true] using scalarF_writeScalarF_zfinx a i j w,
      fun _ => writeX_changes_only_x a i _, nofun⟩
  | false =>
    exact ⟨by simpa only [Bool.false_eq_true, if_false] using scalarF_writeScalarF_float a i j w,
      nofun, fun _ => writeF_changes_only_f a i _⟩

end Sys2Proof.Proofs
end

section
/-! PROOFS. The state between instructions: what a completed step changes (R31, R63, R200 step 6, R201), and that reset, loading and every
completed step meet the invariants (R34, R244). -/

namespace Sys2Proof.Proofs

open Config Machine Safety Laws

/-- Everything a completed step changes and keeps: `Laws.exec_frame` for the instruction that was fetched, one word further in the list. -/
theorem step_frame {s t : State} (h : step s = .next t) :
    ∃ a : Arch s.geom, t = { s with arch := a, executed := s.executed + 1 } ∧ a.f = s.arch.f ∧ a.vstart = 0 ∧
      a.pc = s.arch.pc + BitVec.ofNat s.geom.xlen 4 ∧ (s.arch.vl ≤ s.arch.vtype.vlmax → a.vl ≤ a.vtype.vlmax) := by
  obtain ⟨w, i, u, -, -, hu, rfl⟩ := step_next h
  obtain ⟨a, rfl, hframe⟩ := exec_frame hu
  exact ⟨a, rfl, hframe⟩

/-- The address `4 * k` beyond the next `pc` is the address `4 * (k + 1)` beyond `pc`, modulo `2 ^ XLEN` (R31, D8). -/
theorem address_after_pc_advance {n : Nat} (pc : BitVec n) (k : Nat) :
    ((pc + BitVec.ofNat n 4).toNat + 4 * k) % 2 ^ n = (pc.toNat + 4 * (k + 1)) % 2 ^ n := by
  rw [BitVec.toNat_add, BitVec.toNat_ofNat, Nat.add_mod_mod, Nat.mod_add_mod, Nat.add_assoc, Nat.mul_succ, Nat.add_comm 4]

/-- A completed step keeps `vl` at most VLMAX and leaves memory alone (R34, R63). -/
theorem step_keeps_stateInv {s t : State} (h : step s = .next t) (hs : StateInv s) : StateInv t := by
  obtain ⟨a, rfl, -, -, -, hvl⟩ := step_frame h
  obtain ⟨hlen, hmem⟩ := hs
  exact ⟨hvl hlen, hmem⟩

/-- A completed step moves `pc` by one word and the place in the list by one, so each word left lies where it lay (R31, R63, R244). -/
theorem step_keeps_textPlaced {s t : State} (h : step s = .next t) (hs : TextPlaced s) : TextPlaced t := by
  obtain ⟨a, rfl, -, -, hpc, -⟩ := step_frame h
  intro k w hw
  have hnext : s.program[s.executed + (k + 1)]? = some w := by
    rw [Nat.add_comm k, ← Nat.add_assoc]
    exact hw
  have haddr : (a.pc.toNat + 4 * k) % 2 ^ s.geom.xlen = (s.arch.pc.toNat + 4 * (k + 1)) % 2 ^ s.geom.xlen := by
    rw [hpc, address_after_pc_advance]
  exact haddr ▸ hs (k + 1) w hnext

/-- Settles O54, by the frame of a step: one part for the registers and memory, one for the program text. -/
theorem stepKeepsInvariant : Obligations.StepKeepsInvariant :=
  fun _ _ h => ⟨step_keeps_stateInv h, step_keeps_textPlaced h⟩

/-- Settles O53, by the frame of a step. -/
theorem completedStepAdvancesAndKeepsTheRest : Obligations.CompletedStepAdvancesAndKeepsTheRest := by
  intro s t h
  obtain ⟨a, ht, hf, hvstart, hpc, -⟩ := step_frame h
  exact ⟨a, ht, hf, hvstart, hpc⟩

/-- Settles O57: loading keeps `vl` and `vtype`, and writing words keeps the canonical form of memory. -/
theorem loadingKeepsInvariant : Obligations.LoadingKeepsInvariant := by
  intro s words hs
  obtain ⟨hlen, hwf, hrange⟩ := hs
  exact ⟨hlen, writeWords_keeps hwf hrange s.arch.pc.isLt words⟩

/-- Settles O55: at reset `vl` is 0, memory lists nothing and there is no program. -/
theorem resetMeetsInvariant : Obligations.ResetMeetsInvariant := by
  have hinv : StateInv State.reset := ⟨Nat.zero_le _, List.Pairwise.nil, nofun⟩
  exact ⟨hinv, nofun⟩

end Sys2Proof.Proofs
end

section
/-! PROOFS. Two register files that instructions do not touch: the vector registers under configuration (R22), and with `zfinx` the `f`
registers under arithmetic (R26, D23). -/

namespace Sys2Proof.Proofs

open Config Machine Safety Laws

/-! ### Configuration and the vector registers -/

/-- A completed configuration changes registers only, and none of the vector registers (R22, R201). -/
theorem vset_keeps_v {s t : State} {rs1 rd : RegNum} {setting : Nat} (h : vset rs1 rd setting s = .next t) :
    ∃ a : Arch s.geom, t = { s with arch := a } ∧ a.v = s.arch.v := by
  obtain ⟨r, -, -, rfl⟩ := vset_next h
  exact ⟨_, rfl, by rw [complete_v, writeX_v]⟩

/-- Settles O48: both instructions are `vset` with a setting of their own, and `vset` keeps the vector register file. -/
theorem configurationChangesNoVectorRegister : Obligations.ConfigurationChangesNoVectorRegister := by
  intro s t i hi h
  have hvset : ∃ rs1 rd setting, vset rs1 rd setting s = .next t := by
    rcases hi with ⟨zimm, rs1, rd, rfl⟩ | ⟨rs2, rs1, rd, rfl⟩
    · exact ⟨rs1, rd, zimm.toNat, h⟩
    · exact ⟨rs1, rd, (s.arch.readX rs2).toNat, h⟩
  obtain ⟨rs1, rd, setting, h⟩ := hvset
  obtain ⟨a, ht, hv⟩ := vset_keeps_v h
  exact ⟨a, ht, fun n j => by rw [hv]⟩

/-! ### `zfinx` and the `f` registers -/

section

variable {g : Geometry} (a : Arch g) (fregs : Vector (BitVec g.flen) 32) (slot : Slot) (d : Descriptor) (vm : Bool)
  (vs2 f19 f11 : RegNum)

/-- With `zfinx` the first source operand is read without the `f` registers: the one form that could is `x[i]` there (R26, D23). -/
theorem source1_zfinx (o : Src1) (x : Nat) :
    ({ a with f := fregs } : Arch g).source1 true o f19 x = a.source1 true o f19 x := by
  cases o <;> rfl

theorem elemUpdate_zfinx (width x : Nat) :
    ({ a with f := fregs } : Arch g).elemUpdate true slot d vm vs2 f19 f11 width x =
      a.elemUpdate true slot d vm vs2 f19 f11 width x := by
  simp only [Arch.elemUpdate, Arch.elemResult, source1_zfinx]
  rfl

theorem bodyElement_zfinx (x : Nat) :
    ({ a with f := fregs } : Arch g).bodyElement true d vm vs2 f19 x = a.bodyElement true d vm vs2 f19 x := by
  simp only [Arch.bodyElement, source1_zfinx]
  rfl

theorem updateGroup_zfinx (k : Nat) :
    ({ a with f := fregs } : Arch g).updateGroup true slot d vm vs2 f19 f11 k = a.updateGroup true slot d vm vs2 f19 f11 k := by
  simp only [Arch.updateGroup, elemUpdate_zfinx]

theorem updateMask_zfinx :
    ({ a with f := fregs } : Arch g).updateMask true slot d vm vs2 f19 f11 = a.updateMask true slot d vm vs2 f19 f11 := by
  simp only [Arch.updateMask, elemUpdate_zfinx]

theorem updateScalar0_zfinx :
    ({ a with f := fregs } : Arch g).updateScalar0 true slot d vm vs2 f19 f11 = a.updateScalar0 true slot d vm vs2 f19 f11 := by
  simp only [Arch.updateScalar0, Arch.scalarResult, bodyElement_zfinx]
  rfl

end

/-- Two outcomes of one instruction, from states that differ in the `f` registers alone, agree: the same fault or refusal, or
completions with the same registers but for `f`. -/
inductive AgreeButF (s : State) (fregs : Vector (BitVec s.geom.flen) 32) :
    Host.Outcome State Fault Refusal → Host.Outcome State Fault Refusal → Prop
  | next (a : Arch s.geom) : AgreeButF s fregs (.next { s with arch := a }) (.next { s with arch := { a with f := fregs } })
  | fault (e : Fault) : AgreeButF s fregs (.fault e) (.fault e)
  | refused (r : Refusal) : AgreeButF s fregs (.refused r) (.refused r)

/-- What an agreeing second outcome is, by the first. -/
theorem AgreeButF.transfer {s : State} {fregs : Vector (BitVec s.geom.flen) 32} {o o' : Host.Outcome State Fault Refusal}
    (h : AgreeButF s fregs o o') :
    (∀ a : Arch s.geom, o = .next { s with arch := a } → o' = .next { s with arch := { a with f := fregs } }) ∧
      (∀ e, o = .fault e → o' = .fault e) ∧ ∀ r, o = .refused r → o' = .refused r := by
  cases h with
  | next a => exact ⟨fun b hb => by cases hb; rfl, nofun, nofun⟩
  | fault e => exact ⟨nofun, fun e' he => he, nofun⟩
  | refused r => exact ⟨nofun, nofun, fun r' hr => hr⟩

/-- With `zfinx` the template takes the same branch whatever the `f` registers hold, and writes the same vector registers (R26, R200). -/
theorem execTemplate_zfinx {s : State} (hz : s.params.zfinx = true) (fregs : Vector (BitVec s.geom.flen) 32) (slot : Slot) (inst : Word)
    (vm : Bool) (vs2 f19 f11 : RegNum) :
    AgreeButF s fregs (execTemplate slot inst vm vs2 f19 f11 s)
      (execTemplate slot inst vm vs2 f19 f11 { s with arch := { s.arch with f := fregs } }) := by
  simp only [execTemplate, hz, updateGroup_zfinx, updateMask_zfinx, updateScalar0_zfinx]
  cases descFor s.params.desc slot with
  | none => exact .refused _
  | some d =>
    dsimp only
    split
    · exact .refused _
    split
    · exact .fault _
    split
    · exact .refused _
    cases d.dest with
    | vgroup k => exact .next _
    | mask => exact .next _
    | scalar0 => exact .next _
    | scalar => exact .refused _

/-- Settles O32, by the agreement of the two executions of the template. -/
theorem zfinxNeverReadsFloatRegisters : Obligations.ZfinxNeverReadsFloatRegisters := by
  intro s c f vm vs2 f19 f11 fregs hz i s'
  have hagree : AgreeButF s fregs (exec i s) (exec i s') := by
    rw [exec_arith, exec_arith]
    exact execTemplate_zfinx hz fregs _ _ vm vs2 f19 f11
  exact hagree.transfer

end Sys2Proof.Proofs
end

section
/-! PROOFS. Memory and the register file as storage: the words of a loaded program in memory (R54, R244), the refusal of the memory
instructions (R50), and vector registers read and rewritten as elements of one width or another (R55, R65). -/

namespace Sys2Proof.Proofs

open Config Machine Safety Laws

/-! ### The loaded program -/

/-- Byte `j` of a word, from the least-significant end, is its bits `8j+7:8j` (R54). -/
theorem word_byte (w : Word) (j : Nat) : BitVec.ofNat 8 (w.toNat / 256 ^ j) = w.extractLsb' (8 * j) 8 := by
  rw [BitVec.extractLsb', Nat.shiftRight_eq_div_pow, Nat.pow_mul]

section

variable (s : State) (words : List Word) (hfit : 4 * words.length ≤ 2 ^ s.geom.xlen)

include hfit

/-- Word `k` of a loaded program that fits is read at `pc + 4k` (R244). -/
theorem read_loadProgram (k : Nat) (hk : k < words.length) :
    (s.loadProgram words).mem.read s.geom.xlen ((s.arch.pc.toNat + 4 * k) % 2 ^ s.geom.xlen) 4 = some words[k].toNat :=
  read_writeWords s.mem s.geom.xlen s.arch.pc.toNat words s.arch.pc.isLt hfit k hk

/-- Byte `j` of word `k` of a loaded program that fits lies at `pc + 4k + j` (R54, D9). -/
theorem readByte_loadProgram (k : Nat) (hk : k < words.length) {j : Nat} (hj : j < 4) :
    (s.loadProgram words).mem.readByte ((s.arch.pc.toNat + 4 * k + j) % 2 ^ s.geom.xlen) = some (words[k].extractLsb' (8 * j) 8) := by
  have hbyte := readByte_of_read (Nat.mod_lt _ (Nat.two_pow_pos _)) (read_loadProgram s words hfit k hk) hj
  rwa [Nat.mod_add_mod, word_byte] at hbyte

theorem textPlaced_loadProgram : TextPlaced (s.loadProgram words) := by
  intro k w hw
  have hword : words[k]? = some w := by simpa [State.loadProgram] using hw
  obtain ⟨hk, rfl⟩ := List.getElem?_eq_some_iff.mp hword
  exact read_loadProgram s words hfit k hk

end

/-- Settles O56, by reading back the words that loading wrote, and each word byte by byte. -/
theorem loadedProgramIsFetchedInOrder : Obligations.LoadedProgramIsFetchedInOrder := by
  intro s words hfit
  refine ⟨textPlaced_loadProgram s words hfit, fun k hk => ⟨?_, read_loadProgram s words hfit k hk, ?_⟩⟩
  · exact List.getElem?_eq_getElem hk
  · exact fun j hj => readByte_loadProgram s words hfit k hk hj

/-- Settles O59: the next word is word 0 of those still to be executed, at `pc` itself. -/
theorem fetchedWordIsInMemoryAtPc : Obligations.FetchedWordIsInMemoryAtPc := by
  intro s w hplaced hfetch
  have hread := hplaced 0 w hfetch
  rwa [Nat.mul_zero, Nat.add_zero, Nat.mod_eq_of_lt s.arch.pc.isLt] at hread

/-- Settles O44: the three meanings are the refusal itself, before any field or state is looked at. -/
theorem memoryInstructionsAreRefused : Obligations.MemoryInstructionsAreRefused := by
  intro s
  exact ⟨fun _ _ _ _ _ _ _ => rfl, fun _ _ _ _ _ _ _ => rfl, fun _ _ _ _ _ _ _ => rfl⟩

/-! ### One register at two element widths -/

section

variable {g : Geometry} (t : VType g) (v : VRegs g)

/-- In a group of one register, element `i` has the place `i` (R113). -/
theorem slotOf_one (e i : Nat) : slotOf e 1 i = (0, i) := by
  rw [slotOf, Nat.mod_one, Nat.div_one, Nat.div_add_mod']

/-- With LMUL=1, element `i` is the slice of SEW bits at `i * SEW`, for every SLEN (R113). -/
theorem elemRead_one (n i : Nat) : elemRead v n t.sew 1 i = slice (readV v n) (i * t.sew) t.sew := by
  simp only [elemRead, VType.sew, elemLoc_geom, slotOf_one, Nat.add_zero]

theorem getLsbD_elemRead_one (n i : Nat) {b : Nat} (hb : b < t.sew) :
    (elemRead v n t.sew 1 i).getLsbD b = (readV v n).getLsbD (i * t.sew + b) := by
  rw [elemRead_one, getLsbD_slice _ _ _ _ hb]

end

/-- Settles O14: at either width an element's bits are bits of the register, and the bit numbers are the same. -/
theorem doubleWidthViewPairsElements : Obligations.DoubleWidthViewPairsElements := by
  intro g t u v n j b _ _ hsew _ hb
  rw [getLsbD_elemRead_one u v n j (by omega), getLsbD_elemRead_one u v n j (by omega), getLsbD_elemRead_one t v n _ hb,
    getLsbD_elemRead_one t v n _ hb, hsew]
  have hlow : j * (2 * t.sew) + b = 2 * j * t.sew + b := by ring
  have hhigh : j * (2 * t.sew) + (t.sew + b) = (2 * j + 1) * t.sew + b := by ring
  exact ⟨congrArg _ hlow, congrArg _ hhigh⟩

/-! ### Context restore -/

section

variable {g : Geometry} (t : VType g) (v : VRegs g)

/-- The registers `u` after the group from register `base` on has been reloaded with the elements saved from `v` (R65). -/
def reloadGroup (u : VRegs g) (base : Nat) : VRegs g :=
  writeElems u base t.sew t.lmul.toNat (fun i => some (elemRead v base t.sew t.lmul.toNat i)) t.vlmax

/-- The registers `w` after the first `m` groups have been reloaded. -/
def reloadGroups (w : VRegs g) (m : Nat) : VRegs g :=
  (List.range m).foldl (fun u q => reloadGroup t v u (q * t.lmul.toNat)) w

theorem reloadAll_eq (w : VRegs g) : reloadAll t v w = reloadGroups t v w (32 / t.lmul.toNat) := rfl

@[simp] theorem reloadGroups_zero (w : VRegs g) : reloadGroups t v w 0 = w := rfl

theorem reloadGroups_succ (w : VRegs g) (m : Nat) :
    reloadGroups t v w (m + 1) = reloadGroup t v (reloadGroups t v w m) (m * t.lmul.toNat) := by
  rw [reloadGroups, List.range_succ, List.foldl_concat, reloadGroups]

/-- Every element of a reloaded group is the one saved (R117, R118). -/
theorem elemRead_reloadGroup (u : VRegs g) {base : Nat} (hb : base + t.lmul.toNat ≤ 32) {i : Nat} (hi : i < t.vlmax) :
    elemRead (reloadGroup t v u base) base t.sew t.lmul.toNat i = elemRead v base t.sew t.lmul.toNat i := by
  have hread := elemRead_writeElems (sewLog_le t) (lmul_pos t.lmul) hb u
    (fun i => some (elemRead v base t.sew t.lmul.toNat i)) t.vlmax (vlmax_eq t).le i
  rwa [if_pos hi] at hread

/-- Reloading a group restores its registers, because they hold nothing but elements, and leaves the others alone (R117). -/
theorem readV_reloadGroup (u : VRegs g) {base : Nat} (hb : base + t.lmul.toNat ≤ 32) (n : Nat) :
    readV (reloadGroup t v u base) n = if base ≤ n ∧ n < base + t.lmul.toNat then readV v n else readV u n := by
  split
  · next hn =>
    exact readV_eq_of_elems hb (sewLog_le t) (fun i hi => elemRead_reloadGroup t v u hb (vlmax_eq t ▸ hi)) hn.1 hn.2
  · next hn => exact readV_writeElems_outside (lmul_pos t.lmul) u _ t.vlmax (by omega)

/-- After `m` groups the registers below `m * LMUL` are restored and the others are as before. -/
theorem readV_reloadGroups (w : VRegs g) (m : Nat) (hm : m * t.lmul.toNat ≤ 32) (n : Nat) :
    readV (reloadGroups t v w m) n = if n < m * t.lmul.toNat then readV v n else readV w n := by
  induction m with
  | zero => rw [reloadGroups_zero, Nat.zero_mul, if_neg (Nat.not_lt_zero n)]
  | succ m ih =>
    rw [Nat.succ_mul] at hm ⊢
    rw [reloadGroups_succ, readV_reloadGroup t v _ hm, ih (by omega)]
    by_cases hgroup : m * t.lmul.toNat ≤ n ∧ n < m * t.lmul.toNat + t.lmul.toNat
    · rw [if_pos hgroup, if_pos hgroup.2]
    · have hbelow : n < m * t.lmul.toNat + t.lmul.toNat ↔ n < m * t.lmul.toNat := by omega
      rw [if_neg hgroup]
      simp only [hbelow]

/-- The groups cover the register file: LMUL divides 32 (R10, R20). -/
theorem groups_cover_registers (l : Lmul) : 32 / l.toNat * l.toNat = 32 := by cases l <;> rfl

end

/-- Settles O15, by induction on the groups reloaded, which together are all 32 registers. -/
theorem contextRestoreRecoversAllRegisters : Obligations.ContextRestoreRecoversAllRegisters := by
  intro g t v w
  refine vregs_ext fun n hn => ?_
  have hcover := groups_cover_registers t.lmul
  rw [reloadAll_eq, readV_reloadGroups t v w _ hcover.le, hcover, if_pos hn]

end Sys2Proof.Proofs
end

section
/-! PROOFS. Encoding (`30_encoding.md`): decoding and encoding invert each other (R89), what the rows of the two configuration instructions
and the words outside the formats decode to (R77, R78, R84, R85), and the masking bit (R79). -/

namespace Sys2Proof.Proofs

open Config Machine Laws

/-- Settles O1, by the round trip of each form. -/
theorem encodeThenDecodeReturnsInstruction : Obligations.EncodeThenDecodeReturnsInstruction := by
  intro p i h
  cases i with
  | vsetvli zimm rs1 rd => exact RoundTrip.vsetvli zimm rs1 rd p h
  | vsetvl rs2 rs1 rd => exact RoundTrip.vsetvl rs2 rs1 rd p h
  | opivv f vm vs2 vs1 vd => exact RoundTrip.opivv f vm vs2 vs1 vd p h
  | opfvv f vm vs2 vs1 vdRd => exact RoundTrip.opfvv f vm vs2 vs1 vdRd p h
  | opmvv f vm vs2 vs1 vdRd => exact RoundTrip.opmvv f vm vs2 vs1 vdRd p h
  | opivi f vm vs2 simm5 vd => exact RoundTrip.opivi f vm vs2 simm5 vd p h
  | opivx f vm vs2 rs1 vd => exact RoundTrip.opivx f vm vs2 rs1 vd p h
  | opfvf f vm vs2 rs1 vd => exact RoundTrip.opfvf f vm vs2 rs1 vd p h
  | opmvx f vm vs2 rs1 vdRd => exact RoundTrip.opmvx f vm vs2 rs1 vdRd p h
  | vload nf mop vm f24 rs1 width vd => exact RoundTrip.vload nf mop vm f24 rs1 width vd p h
  | vstore nf mop vm f24 rs1 width vs3 => exact RoundTrip.vstore nf mop vm f24 rs1 width vs3 p h
  | vamo amoop wd vm vs2 rs1 width vs3Vd => exact RoundTrip.vamo amoop wd vm vs2 rs1 width vs3Vd p h

/-! ### The fields of a decoded word -/

/-- A word is the layout of its own fields, given bits 31:25, 14:12 and 6:0 under other names. -/
theorem layout_eq_word {w : Word} {f31 : BitVec 7} {f14 : BitVec 3} {op : BitVec 7} (h31 : f31 = w.extractLsb' 25 7)
    (h14 : w.extractLsb' 12 3 = f14) (hop : w.extractLsb' 0 7 = op) :
    layout f31 (w.extractLsb' 20 5) (w.extractLsb' 15 5) f14 (w.extractLsb' 7 5) op = w := by
  subst h31 h14 hop
  exact layout_fields w

/-- Bits 31:25 of a configuration word: bit 31, then bits 30:25 (R77, R78). -/
theorem f31_config (w : Word) : (BitVec.ofBool (w.getLsbD 31) ++ w.extractLsb' 25 6 : BitVec 7) = w.extractLsb' 25 7 := by
  apply BitVec.eq_of_getLsbD_eq
  intro i hi
  simp only [BitVec.getLsbD_append, BitVec.getLsbD_extractLsb', BitVec.getLsbD_ofBool]
  interval_cases i <;> simp

/-- Bits 14:12 name no category exactly in a configuration word (R75). -/
theorem categoryOf_eq_none {b : BitVec 3} : categoryOf b = none ↔ b = 0b111#3 := by
  revert b
  decide

/-- The word of an OP-V arithmetic instruction of any category is laid out by R75. -/
theorem encode_arith (c : Category) (f : BitVec 6) (vm : Bool) (vs2 f19 f11 : RegNum) :
    encode (.arith c f vm vs2 f19 f11) = encodeArith c f vm vs2 f19 f11 := by
  cases c <;> rfl

/-- The three formats with a `width` field alone depend on `IsVectorWidth`. -/
theorem wellFormed_arith (p : VectorWidths) (c : Category) (f : BitVec 6) (vm : Bool) (vs2 f19 f11 : RegNum) :
    (Instr.arith c f vm vs2 f19 f11).wellFormed p = true := by
  cases c <;> rfl

/-- A field of the immediate of `vsetvli` is a field of the word (R77). -/
theorem extract_zimm_field (w : Word) (lo len : Nat) (h : lo + len ≤ 11) :
    (w.extractLsb' 20 11).extractLsb' lo len = w.extractLsb' (20 + lo) len := by
  apply BitVec.eq_of_getLsbD_eq
  intro i hi
  have hin : lo + i < 11 := by omega
  simp only [BitVec.getLsbD_extractLsb', hi, hin, decide_true, Bool.true_and, Nat.add_assoc]

/-! ### From the word to the instruction and back -/

theorem encode_vsetvli_fields {w : Word} (hop : w.extractLsb' 0 7 = MajorOpcode.opV.bits) (h14 : w.extractLsb' 12 3 = 0b111#3)
    (h31 : w.getLsbD 31 = false) : encode (.vsetvli (w.extractLsb' 20 11) (w.extractLsb' 15 5) (w.extractLsb' 7 5)) = w := by
  have hlow : (w.extractLsb' 20 11).extractLsb' 0 5 = w.extractLsb' 20 5 := extract_zimm_field w _ _ (by decide)
  have hhigh : (w.extractLsb' 20 11).extractLsb' 5 6 = w.extractLsb' 25 6 := extract_zimm_field w _ _ (by decide)
  have htop := f31_config w
  rw [h31] at htop
  rw [encode_vsetvli, hlow, hhigh]
  exact layout_eq_word htop h14 hop

theorem encode_vsetvl_fields {w : Word} (hop : w.extractLsb' 0 7 = MajorOpcode.opV.bits) (h14 : w.extractLsb' 12 3 = 0b111#3)
    (h31 : w.getLsbD 31 = true) (hzero : w.extractLsb' 25 6 = 0b000000#6) :
    encode (.vsetvl (w.extractLsb' 20 5) (w.extractLsb' 15 5) (w.extractLsb' 7 5)) = w := by
  have htop := f31_config w
  rw [h31, hzero] at htop
  exact layout_eq_word htop h14 hop

/-- A word of OP-V that decodes is the word of its instruction, which is well formed whatever `IsVectorWidth` is. -/
theorem encode_of_decodeOpV {w : Word} {i : Instr} (hop : w.extractLsb' 0 7 = MajorOpcode.opV.bits) (h : decodeOpV w = .instr i)
    (p : VectorWidths) : encode i = w ∧ i.wellFormed p = true := by
  unfold decodeOpV at h
  split at h
  · next c hc =>
    obtain rfl := Decoded.instr.inj h
    refine ⟨?_, wellFormed_arith ..⟩
    rw [encode_arith]
    exact layout_eq_word (f31_arith w) (categoryOf_some hc) hop
  · next hc =>
    have h14 := categoryOf_eq_none.mp hc
    split at h
    · next h31 =>
      obtain rfl := Decoded.instr.inj h
      exact ⟨encode_vsetvli_fields hop h14 h31, rfl⟩
    next h31 =>
      split at h
      · next hzero =>
        obtain rfl := Decoded.instr.inj h
        exact ⟨encode_vsetvl_fields hop h14 (Bool.eq_true_of_not_eq_false h31) hzero, rfl⟩
      · cases h

/-- Settles O2, by the four major opcodes: each format's fields are all the bits of the word. -/
theorem decodedWordIsEncodingOfInstruction : Obligations.DecodedWordIsEncodingOfInstruction := by
  intro p w i h
  unfold decode at h
  simp only at h
  split at h
  · next hop => exact encode_of_decodeOpV hop h p
  split at h
  · next hload =>
    obtain rfl := Decoded.instr.inj h
    exact ⟨layout_eq_word (f31_mem w) rfl hload.1, hload.2⟩
  split at h
  · next hstore =>
    obtain rfl := Decoded.instr.inj h
    exact ⟨layout_eq_word (f31_mem w) rfl hstore.1, hstore.2⟩
  split at h
  · next hamo =>
    obtain rfl := Decoded.instr.inj h
    exact ⟨layout_eq_word (f31_amo w) rfl hamo.1, hamo.2⟩
  · cases h

/-! ### The configuration space (R77, R78, R85) -/

/-- A field that a mask covers is the match's field. -/
theorem field_of_and_eq {w m r : Word} (h : w &&& m = r) (lo len : Nat) (hm : m.extractLsb' lo len = BitVec.allOnes len) :
    w.extractLsb' lo len = r.extractLsb' lo len := by
  rw [← h, BitVec.extractLsb'_and, hm, BitVec.and_allOnes]

/-- A bit that a mask covers is the match's bit. -/
theorem bit_of_and_eq {w m r : Word} (h : w &&& m = r) (i : Nat) (hm : m.getLsbD i = true) : w.getLsbD i = r.getLsbD i := by
  rw [← h, BitVec.getLsbD_and, hm, Bool.and_true]

/-- Decoding a configuration word: bit 31, then bits 30:25 select (R89). -/
theorem decode_config (p : VectorWidths) {w : Word} (hop : w.extractLsb' 0 7 = MajorOpcode.opV.bits)
    (h14 : w.extractLsb' 12 3 = 0b111#3) :
    decode p w =
      if w.getLsbD 31 = false then .instr (.vsetvli (w.extractLsb' 20 11) (w.extractLsb' 15 5) (w.extractLsb' 7 5))
      else if w.extractLsb' 25 6 = 0b000000#6 then .instr (.vsetvl (w.extractLsb' 20 5) (w.extractLsb' 15 5) (w.extractLsb' 7 5))
      else .illegal := by
  simp only [decode, hop, if_true, decodeOpV, categoryOf_eq_none.mpr h14]

/-- Settles O3: the mask covers the opcode, bits 14:12 and bit 31. -/
theorem vsetvliRowDecodesWithAllFields : Obligations.VsetvliRowDecodesWithAllFields := by
  intro p w h
  have h31 : w.getLsbD 31 = false := bit_of_and_eq h 31 (by decide)
  rw [decode_config p (field_of_and_eq h 0 7 (by decide)) (field_of_and_eq h 12 3 (by decide)), if_pos h31]

/-- Settles O4: in both rows bit 31 is 1, and bits 30:25 tell `vsetvl` from the illegal word. -/
theorem vsetvlRowDecodesAndOthersAreIllegal : Obligations.VsetvlRowDecodesAndOthersAreIllegal := by
  refine ⟨fun p w h => ?_, fun p w h hother => ?_⟩
  · have h31 : w.getLsbD 31 = true := bit_of_and_eq h 31 (by decide)
    have hzero : w.extractLsb' 25 6 = 0#6 := field_of_and_eq h 25 6 (by decide)
    rw [decode_config p (field_of_and_eq h 0 7 (by decide)) (field_of_and_eq h 12 3 (by decide)), if_neg (by simp [h31]), if_pos hzero]
  · have h31 : w.getLsbD 31 = true := bit_of_and_eq h 31 (by decide)
    rw [decode_config p (field_of_and_eq h 0 7 (by decide)) (field_of_and_eq h 12 3 (by decide)), if_neg (by simp [h31]), if_neg hother]

/-! ### Words outside the formats (R84, R89) -/

/-- Every word of OP-V is an instruction or the illegal word. -/
theorem decodeOpV_ne_notInThisSpec (w : Word) : decodeOpV w ≠ .notInThisSpec := by
  unfold decodeOpV
  repeat' split
  all_goals exact Decoded.noConfusion

/-- Settles O6: of the decoder's branches only the last has this answer, and it is reached when each opcode test fails. -/
theorem wordsOutsideTheFormats : Obligations.WordsOutsideTheFormats := by
  intro p w
  have unmarked : ∀ op : MajorOpcode, (w.extractLsb' 0 7 = op.bits → p.isVectorWidth op (w.extractLsb' 12 3) = false) ↔
      ¬ (w.extractLsb' 0 7 = op.bits ∧ p.isVectorWidth op (w.extractLsb' 12 3) = true) := by simp
  constructor
  · intro h
    unfold decode at h
    simp only at h
    split at h
    · exact absurd h (decodeOpV_ne_notInThisSpec w)
    next hop =>
      split at h
      · cases h
      next hload =>
        split at h
        · cases h
        next hstore =>
          split at h
          · cases h
          next hamo => exact ⟨hop, (unmarked .loadFp).mpr hload, (unmarked .storeFp).mpr hstore, (unmarked .amo).mpr hamo⟩
  · rintro ⟨hop, hload, hstore, hamo⟩
    exact (if_neg hop).trans ((if_neg ((unmarked .loadFp).mp hload)).trans ((if_neg ((unmarked .storeFp).mp hstore)).trans
      (if_neg ((unmarked .amo).mp hamo))))

/-! ### The masking bit (R79) -/

section

variable (high : BitVec 6) (vm : Bool) (f24 f19 : BitVec 5) (f14 : BitVec 3) (f11 : BitVec 5) (op : BitVec 7)

/-- The bits of a word with `vm` in bit 25: bit 25 is `vm`, and no other bit depends on it. -/
theorem layout_vm : (layout (high ++ BitVec.ofBool vm) f24 f19 f14 f11 op).getLsbD 25 = vm ∧ ∀ j, j ≠ 25 →
    (layout (high ++ BitVec.ofBool vm) f24 f19 f14 f11 op).getLsbD j = (layout (high ++ BitVec.ofBool (!vm)) f24 f19 f14 f11 op).getLsbD j := by
  refine ⟨by rw [layout_bit25, arith_vm], fun j hj => ?_⟩
  rcases Nat.lt_or_ge j 25 with hlow | hhigh
  · simp only [getLsbD_layout, if_pos hlow]
  · have htop : ¬ j - 25 < 1 := by omega
    simp only [getLsbD_layout, BitVec.getLsbD_append, if_neg htop]

end

/-- Settles O5: the four formats lay `vm` in bit 25, below six bits of other fields. -/
theorem maskingBitIsInstructionBit25 : Obligations.MaskingBitIsInstructionBit25 := by
  refine ⟨fun i hform vm => ?_, fun zimm rs1 rd => ?_, fun rs2 rs1 rd => ?_, fun g a x => ⟨rfl, Bool.false_or _⟩⟩
  · rcases hform with ⟨c, f, vs2, f19, f11, rfl⟩ | ⟨nf, mop, f24, rs1, width, vd, rfl⟩ | ⟨nf, mop, f24, rs1, width, vs3, rfl⟩ |
      ⟨amoop, wd, vs2, rs1, width, vs3Vd, rfl⟩
    · simp only [encode_arith]
      exact layout_vm f vm vs2 f19 c.bits f11 _
    · exact layout_vm (nf ++ mop) vm f24 rs1 width vd _
    · exact layout_vm (nf ++ mop) vm f24 rs1 width vs3 _
    · exact layout_vm (amoop ++ BitVec.ofBool wd) vm vs2 rs1 width vs3Vd _
  · rw [encode_vsetvli, layout_bit25, BitVec.getLsbD_append]
    exact BitVec.getLsbD_extractLsb' ..
  · exact layout_bit25 ..

/-- Settles O7, by running the decoder on the thirteen words. -/
theorem workedWordsDecode : Obligations.WorkedWordsDecode := by
  unfold Obligations.WorkedWordsDecode
  decide

end Sys2Proof.Proofs
end

section
/-! PROOFS. From a word to its execution: what descriptors a category admits (R75, R160, R161), the refusal of a masked encoding of an
unmaskable instruction (R85(b)), and what a step does with the next word (R244, R89). -/

namespace Sys2Proof.Proofs

open Config Machine Safety Laws

/-! ### The operand kinds of a category (R75, R160, R161) -/

section

variable (c : Category)

@[simp] theorem src1Fits_none : src1Fits c .none = true := by cases c <;> rfl
@[simp] theorem src1Fits_simm5 : src1Fits c .simm5 = true ↔ c = .opivi := by cases c <;> decide
@[simp] theorem src1Fits_xreg : src1Fits c .xreg = true ↔ c = .opivx ∨ c = .opmvx := by cases c <;> decide
@[simp] theorem src1Fits_freg : src1Fits c .freg = true ↔ c = .opfvf := by cases c <;> decide
@[simp] theorem src1Fits_mask : src1Fits c .mask = true ↔ c = .opivv ∨ c = .opfvv ∨ c = .opmvv := by cases c <;> decide
@[simp] theorem src1Fits_scalar0 : src1Fits c .scalar0 = true ↔ c = .opivv ∨ c = .opfvv ∨ c = .opmvv := by cases c <;> decide
@[simp] theorem src1Fits_vgroup (k : Nat) : src1Fits c (.vgroup k) = true ↔ c = .opivv ∨ c = .opfvv ∨ c = .opmvv := by
  cases c <;> simp [src1Fits]

@[simp] theorem destFits_scalar : destFits c .scalar = true ↔ c = .opfvv ∨ c = .opmvv ∨ c = .opmvx := by cases c <;> decide

theorem destFits_iff (o : Dest) : destFits c o = true ↔ (o = .scalar → c = .opfvv ∨ c = .opmvv ∨ c = .opmvx) := by
  cases o with
  | scalar => simp
  | vgroup k => simp [destFits]
  | mask => simp [destFits]
  | scalar0 => simp [destFits]

/-- The fields of a category can name the operands of a descriptor exactly when its first source and its destination fit. -/
theorem fieldsName_iff (d : Descriptor) : FieldsName c d ↔ src1Fits c d.src1 = true ∧ destFits c d.dest = true := by
  constructor
  · rintro ⟨himm, hint, hfloat, hvector, hscalar⟩
    refine ⟨?_, (destFits_iff c _).mpr hscalar⟩
    cases hsrc : d.src1 with
    | vgroup k => exact (src1Fits_vgroup c k).mpr (hvector (.inl ⟨k, hsrc⟩))
    | mask => exact (src1Fits_mask c).mpr (hvector (.inr (.inl hsrc)))
    | scalar0 => exact (src1Fits_scalar0 c).mpr (hvector (.inr (.inr hsrc)))
    | simm5 => exact (src1Fits_simm5 c).mpr (himm hsrc)
    | xreg => exact (src1Fits_xreg c).mpr (hint hsrc)
    | freg => exact (src1Fits_freg c).mpr (hfloat hsrc)
    | none => exact src1Fits_none c
  · rintro ⟨hsrc, hdest⟩
    refine ⟨fun h => ?_, fun h => ?_, fun h => ?_, ?_, (destFits_iff c _).mp hdest⟩
    · simpa [h] using hsrc
    · simpa [h] using hsrc
    · simpa [h] using hsrc
    · rintro (⟨k, h⟩ | h | h) <;> simpa [h] using hsrc

end

/-- The descriptor found for a slot fits the slot's category (log 3). -/
theorem descFor_fits {table : List (Slot × Descriptor)} {slot : Slot} {d : Descriptor} (h : descFor table slot = some d) :
    descriptorFits slot.category d = true := by
  induction table with
  | nil => cases h
  | cons entry rest ih =>
    unfold descFor at h
    split at h
    · next hentry =>
      obtain rfl := Option.some.inj h
      exact hentry.2
    · exact ih h

theorem fieldsName_of_fits {c : Category} {d : Descriptor} (h : descriptorFits c d = true) : FieldsName c d := by
  simp only [descriptorFits, Bool.and_eq_true] at h
  exact (fieldsName_iff c d).mpr h.1

/-- With its element function not in the source, a descriptor fits when the fields can name its operands. -/
theorem fits_of_fieldsName {c : Category} {d : Descriptor} (hfn : d.fn = .notInSource) (h : FieldsName c d) :
    descriptorFits c d = true := by
  obtain ⟨hsrc, hdest⟩ := (fieldsName_iff c d).mp h
  simp [descriptorFits, hsrc, hdest, fnFits, hfn]

/-- Settles O26: the table is searched for a descriptor that fits, and fitting is what the fields can name. -/
theorem categoryFixesOperandKinds : Obligations.CategoryFixesOperandKinds :=
  ⟨fun _ _ _ _ h => fieldsName_of_fits (descFor_fits h), fun _ _ _ _ hfn h => if_pos ⟨rfl, fits_of_fieldsName hfn h⟩⟩

/-! ### Masking an unmaskable instruction (R85(b), R200 step 3) -/

/-- Settles O41: the template passes steps 1 and 2 and stops at step 3. -/
theorem maskedUnmaskableIsRefused : Obligations.MaskedUnmaskableIsRefused := by
  intro s c f vs2 f19 f11 d hdesc hstart hlength hlegal hmask
  have hrange : ¬ (s.arch.vl < s.arch.vstart ∨ s.arch.vtype.vlmax < s.arch.vl) := by omega
  simp only [exec_arith, execTemplate, hdesc, hlegal, hmask, if_neg hrange, Bool.true_eq_false, if_false, and_self, if_true]

/-! ### The step by what the next word is (R244, R89) -/

section

variable {s : State} {w : Word}

theorem step_of_end (hf : s.fetch = none) : step s = .fault (.endOfProgram s.arch.pc.toNat) := by
  simp only [step, hf]

theorem step_of_instr {i : Instr} (hf : s.fetch = some w) (hd : decode s.params.vectorWidths w = .instr i) :
    step s = s.countExecuted (exec i s) := by
  simp only [step, hf, hd]

theorem step_of_illegal (hf : s.fetch = some w) (hd : decode s.params.vectorWidths w = .illegal) : step s = raiseIllegal w s := by
  simp only [step, hf, hd]

theorem step_of_notInThisSpec (hf : s.fetch = some w) (hd : decode s.params.vectorWidths w = .notInThisSpec) :
    step s = .refused .notInThisSpec := by
  simp only [step, hf, hd]

end

/-- Settles O50: the step is exec of the instruction, counted, and counting changes a next state alone. -/
theorem stepRunsDecodedInstruction : Obligations.StepRunsDecodedInstruction := by
  intro s w i hf hd
  rw [step_of_instr hf hd]
  refine ⟨fun t h => ?_, fun e h => ?_, fun r h => ?_⟩
  · rw [h, countExecuted_next]
  · rw [h, countExecuted_fault]
  · rw [h, countExecuted_refused]

/-- Settles O51, by the three ways a word is no instruction or is missing. -/
theorem stepStopsWithoutAnInstruction : Obligations.StepStopsWithoutAnInstruction := fun _ =>
  ⟨step_of_end, fun _ hf => ⟨step_of_illegal hf, step_of_notInThisSpec hf⟩⟩

end Sys2Proof.Proofs
end

section
/-! PROOFS. The element mapping (`40_element_mapping.md`): the bijection of indices and slots (R117), where the elements lie for narrow
and for wide elements (R113, R115, R116, R119), and what an equal ratio SEW/LMUL keeps (R123, R124, R125, R149). -/

namespace Sys2Proof.Proofs

open Config Machine Laws

/-! ### Slots and indices -/

/-- An index whose slot lies in the group is below the number of slots: the converse of `slotOf_snd_lt` (R117). -/
theorem lt_of_slotOf_snd_lt {e lmul m i : Nat} (he : 0 < e) (hl : 0 < lmul) (h : (slotOf e lmul i).2 < e * m) :
    i < lmul * (e * m) := by
  have hstripe : i / e / lmul < m := by
    refine Nat.lt_of_mul_lt_mul_right (a := e) ?_
    rw [Nat.mul_comm m]
    exact Nat.lt_of_le_of_lt (Nat.le_add_right _ _) h
  rw [Nat.div_lt_iff_lt_mul hl, Nat.div_lt_iff_lt_mul he] at hstripe
  rwa [show lmul * (e * m) = m * lmul * e by ring]

section

variable {g : Geometry} (t : VType g)

theorem sew_pos : 0 < t.sew := by
  rw [VType.sew]
  positivity

/-- A register holds a power of two of elements (R11). -/
theorem vlen_div_sew : g.vlen / t.sew = 2 ^ (g.vlenLog - t.sewLog.val) := by
  simpa [VType.sew] using vlmax_pow (l := 1) (sewLog_le t)

/-- `elemLoc` is the slot, at slot index times SEW. -/
theorem elemLoc_eq_slotOf (l i : Nat) :
    elemLoc g.slen t.sew l i =
      ((slotOf (2 ^ (g.slenLog - t.sewLog.val)) l i).1, (slotOf (2 ^ (g.slenLog - t.sewLog.val)) l i).2 * t.sew) :=
  elemLoc_geom _ _ _

/-- `elemAt` finds the index back from its slot (R117). -/
theorem elemAt_slotOf (l i : Nat) :
    elemAt g.slen t.sew l (slotOf (2 ^ (g.slenLog - t.sewLog.val)) l i).1 (slotOf (2 ^ (g.slenLog - t.sewLog.val)) l i).2 = i :=
  (elemAt_pow _ _ _ _ _).trans (slotOf_inverse i (Nat.two_pow_pos _))

/-- The index that `elemAt` gives for a slot has that slot (R117). -/
theorem slotOf_elemAt {l r : Nat} (hr : r < l) (k : Nat) :
    slotOf (2 ^ (g.slenLog - t.sewLog.val)) l (elemAt g.slen t.sew l r k) = (r, k) := by
  rw [VType.sew, elemAt_pow]
  exact slotOf_surjective (Nat.two_pow_pos _) hr

/-- The indices below VLMAX are those whose slot index is below VLEN/SEW (R117). -/
theorem lt_vlmax_iff (i : Nat) :
    i < t.vlmax ↔ (slotOf (2 ^ (g.slenLog - t.sewLog.val)) t.lmul.toNat i).2 < g.vlen / t.sew := by
  rw [vlmax_eq, vlen_div_sew, slots_pow g.slen_le_vlen]
  exact ⟨slotOf_snd_lt (Nat.two_pow_pos _), lt_of_slotOf_snd_lt (Nat.two_pow_pos _) (lmul_pos t.lmul)⟩

end

/-- Settles O8: `elemLoc` is the slot of the index, and `elemAt` inverts slots both ways. -/
theorem elementMappingIsBijective : Obligations.ElementMappingIsBijective := by
  intro g t
  refine ⟨fun i hi => ?_, fun r hr k hk => ?_⟩
  · refine ⟨(slotOf (2 ^ (g.slenLog - t.sewLog.val)) t.lmul.toNat i).2, (lt_vlmax_iff t i).mp hi, ?_⟩
    rw [elemLoc_eq_slotOf]
    exact ⟨slotOf_fst_lt i (lmul_pos t.lmul), rfl, elemAt_slotOf t _ i⟩
  · rw [lt_vlmax_iff, elemLoc_eq_slotOf, slotOf_elemAt t hr k]
    exact ⟨hk, rfl⟩

/-! ### Where the elements lie -/

/-- Settles O9: with one register, place and index agree at every SLEN. -/
theorem singleRegisterElementsPackInOrder : Obligations.SingleRegisterElementsPackInOrder := by
  intro g t v n i hl _
  rw [hl, Nat.mul_comm t.sew]
  exact elemRead_one t v n i

/-- Elements no wider than SLEN fill a segment exactly, `E` of R115 of them. -/
theorem slen_eq_run_mul_sew {g : Geometry} {t : VType g} (h : t.sew ≤ g.slen) :
    g.slen = 2 ^ (g.slenLog - t.sewLog.val) * t.sew :=
  (max_eq_left h).symm.trans (max_pow _ _)

theorem slen_div_sew {g : Geometry} {t : VType g} (h : t.sew ≤ g.slen) : g.slen / t.sew = 2 ^ (g.slenLog - t.sewLog.val) :=
  Nat.div_eq_of_eq_mul_left (sew_pos t) (slen_eq_run_mul_sew h)

/-- Settles O10: the index is the one of register `r` and place `q * E + p`, and `E` elements fill SLEN bits. -/
theorem stripesFillSegmentsRegisterByRegister : Obligations.StripesFillSegmentsRegisterByRegister := by
  intro g t hw q r p hr hp
  have hseg := slen_eq_run_mul_sew hw
  rw [slen_div_sew hw] at hp ⊢
  set E := 2 ^ (g.slenLog - t.sewLog.val) with hE
  have hdiv : (q * E + p) / E = q := by
    rw [Nat.add_comm, Nat.add_mul_div_right _ _ (by omega), Nat.div_eq_of_lt hp, Nat.zero_add]
  have hmod : (q * E + p) % E = p := by
    rw [Nat.add_comm, Nat.add_mul_mod_self_right, Nat.mod_eq_of_lt hp]
  have hslot := slotOf_surjective (k := q * E + p) (show 0 < E by omega) hr
  rw [hdiv, hmod] at hslot
  rw [elemLoc_eq_slotOf, ← hE, hslot, Nat.add_mul, Nat.mul_assoc, ← hseg]

/-- Settles O11: a run is one element, so the registers take turns, and a stride is SEW bits. -/
theorem wideElementsAlternateBetweenRegisters : Obligations.WideElementsAlternateBetweenRegisters := by
  intro g t i hw
  have hrun : runLength g.slen t.sew = 1 := by rw [runLength, Nat.div_eq_of_lt hw]; rfl
  simp only [elemLoc, hrun, max_eq_right hw.le, Nat.div_one, Nat.mod_one, Nat.zero_mul, Nat.add_zero]

theorem elemLoc_zero (slen sew lmul : Nat) : elemLoc slen sew lmul 0 = (0, 0) := by simp [elemLoc]

/-- Settles O12: index 0 is the first place of the first register. -/
theorem elementZeroIsLowBitsOfLowestRegister : Obligations.ElementZeroIsLowBitsOfLowestRegister := by
  intro g t v base
  rw [elemRead, elemLoc_zero]
  rfl

/-! ### Equal ratios -/

section

variable {g : Geometry} {t u : VType g}

/-- MLEN is the ratio: LMUL divides SEW (R12, R142). -/
theorem mlen_mul_lmul (t : VType g) : t.mlen * t.lmul.toNat = t.sew := by
  obtain ⟨n, hn, hl, hm⟩ := mlen_pow t
  rw [hl, hm, ← Nat.pow_add, Nat.sub_add_cancel (by omega), Nat.pow_add, VType.sew]

/-- Settings of equal ratio have the same MLEN (R148). -/
theorem mlen_eq_of_equal_ratio (h : t.sew * u.lmul.toNat = u.sew * t.lmul.toNat) : t.mlen = u.mlen := by
  rw [← mlen_mul_lmul t, ← mlen_mul_lmul u, Nat.mul_right_comm u.mlen, Nat.mul_assoc, Nat.mul_assoc u.mlen] at h
  exact Nat.eq_of_mul_eq_mul_right (Nat.mul_pos (lmul_pos _) (lmul_pos _)) h

/-- The mask elements of the elements that lie in one segment of the group fill a segment of the mask (R149). -/
theorem slen_eq_mlen_mul (h : t.sew ≤ g.slen) : g.slen = t.mlen * (2 ^ (g.slenLog - t.sewLog.val) * t.lmul.toNat) := by
  rw [Nat.mul_left_comm, mlen_mul_lmul]
  exact slen_eq_run_mul_sew h

/-- The segment of an element no wider than SLEN (R124). -/
theorem elemLoc_segment (h : t.sew ≤ g.slen) (i : Nat) :
    (elemLoc g.slen t.sew t.lmul.toNat i).2 / g.slen = i / (g.slen / t.mlen) := by
  have hrun : g.slen / t.mlen = 2 ^ (g.slenLog - t.sewLog.val) * t.lmul.toNat :=
    Nat.div_eq_of_eq_mul_right (mlen_pos t) (slen_eq_mlen_mul h)
  have hE := Nat.two_pow_pos (g.slenLog - t.sewLog.val)
  rw [hrun, elemLoc_eq_slotOf]
  simp only [slotOf]
  rw [slen_eq_run_mul_sew h, Nat.mul_div_mul_right _ _ (sew_pos t), Nat.add_comm, Nat.add_mul_div_right _ _ hE,
    Nat.div_eq_of_lt (Nat.mod_lt _ hE), Nat.zero_add, Nat.div_div_eq_div_mul]

/-- The segment of a predicate bit, likewise (R149). -/
theorem maskElem_segment (h : t.sew ≤ g.slen) (i : Nat) : t.mlen * i / g.slen = i / (g.slen / t.mlen) := by
  rw [slen_eq_mlen_mul h, Nat.mul_div_mul_left _ _ (mlen_pos t), Nat.mul_div_cancel_left _ (mlen_pos t)]

end

/-- Settles O13: the segment of an element and that of its predicate bit depend on the index and on MLEN alone, and MLEN is the ratio. -/
theorem equalRatioElementsShareSegment : Obligations.EqualRatioElementsShareSegment := by
  intro g t u hratio ht hu i _
  rw [elemLoc_segment ht, elemLoc_segment hu, maskElem_segment ht, mlen_eq_of_equal_ratio hratio]
  exact ⟨rfl, rfl, rfl⟩

/-- Settles O20: VLMAX is VLEN/MLEN (R143), and MLEN is the ratio. -/
theorem equalRatioKeepsElementCount : Obligations.EqualRatioKeepsElementCount := by
  intro g t u hratio
  refine Nat.eq_of_mul_eq_mul_left (mlen_pos u) ?_
  rw [mlen_mul_vlmax, ← mlen_eq_of_equal_ratio hratio, mlen_mul_vlmax]

/-- Settles O16: an entry is made where its LMUL gives the ratio, and no two of 1, 2, 4 and 8 give the same width for a ratio above 0. -/
theorem operatingPointsKeepTheRatio : Obligations.OperatingPointsKeepTheRatio := by
  intro sew ratio l hratio
  constructor
  · intro hentry
    rw [operatingLmul] at hentry
    split_ifs at hentry with h1 h2 h4 h8 <;> cases hentry
    · rw [h1, Lmul.toNat, Nat.one_mul]
    · exact h2.symm
    · exact h4.symm
    · exact h8.symm
  · intro hsew
    rw [operatingLmul]
    cases l with
    | m1 =>
      have hsew : 1 * ratio = sew := hsew
      rw [if_pos (by omega)]
    | m2 =>
      have hsew : 2 * ratio = sew := hsew
      rw [if_neg (by omega), if_pos (by omega)]
    | m4 =>
      have hsew : 4 * ratio = sew := hsew
      rw [if_neg (by omega), if_neg (by omega), if_pos (by omega)]
    | m8 =>
      have hsew : 8 * ratio = sew := hsew
      rw [if_neg (by omega), if_neg (by omega), if_neg (by omega), if_pos (by omega)]

end Sys2Proof.Proofs
end

section
/-! PROOFS. Striping (R122): what an arithmetic instruction makes of a destination element, as a number, depends on no SLEN. -/

namespace Sys2Proof.Proofs

open Config Machine Safety Laws

/-! ### The destination element after an instruction -/

section

/-- The width of an element of a destination: of a group by its multiplier (R164), of a mask one bit (R145), of a scalar SEW (R162). -/
def destWidth {g : Geometry} (t : VType g) : Dest → Nat
  | .vgroup k => t.widened k
  | .mask => 1
  | .scalar0 => t.sew
  | .scalar => 0

/-- The value that destination element `x` is given, if it is given one (R200 step 5, R161). -/
def newDestElem (s : State) (slot : Slot) (d : Descriptor) (vm : Bool) (vs2 f19 f11 : RegNum) (x : Nat) : Option Nat :=
  match d.dest with
  | .vgroup k => s.arch.elemUpdate s.params.zfinx slot d vm vs2 f19 f11 (s.arch.vtype.widened k) x
  | .mask => s.arch.elemUpdate s.params.zfinx slot d vm vs2 f19 f11 1 x
  | .scalar0 => some (s.arch.scalarResult s.params.zfinx slot d vm vs2 f19 f11)
  | .scalar => none

/-- Destination element `x` after the instruction: its new value or else its old one, cut to its own width and to what a register
holds of it (R118, log 24). -/
def destResult (s : State) (slot : Slot) (d : Descriptor) (vm : Bool) (vs2 f19 f11 : RegNum) (x : Nat) : Nat :=
  (newDestElem s slot d vm vs2 f19 f11 x).getD (s.arch.destElem d.dest f11 x) % 2 ^ destWidth s.arch.vtype d.dest % 2 ^ s.geom.vlen

variable {s t : State} {slot : Slot} {d : Descriptor} {vm : Bool} {vs2 f19 f11 : RegNum} {k x : Nat}

/-- The bits of a group element that it has and a register holds are those that `ElemRead` gives (R118). -/
theorem groupElem_mod_width {g : Geometry} (a : Arch g) (n : RegNum) (k x : Nat) :
    a.groupElem n k x % 2 ^ a.vtype.widened k % 2 ^ g.vlen =
      (elemRead a.v n.toNat (a.vtype.widened k) (a.vtype.groupSize k) x).toNat % 2 ^ g.vlen := by
  rcases Nat.le_total (a.vtype.widened k) g.vlen with hw | hw
  · rw [groupElem_of_fits hw, Nat.mod_eq_of_lt (BitVec.isLt _)]
  · rw [Nat.mod_mod_of_dvd _ (Nat.pow_dvd_pow 2 hw), groupElem_mod]

theorem groupResult_toNat (hd : d.dest = .vgroup k) :
    (groupResult s slot d vm vs2 f19 f11 k x).toNat % 2 ^ s.geom.vlen = destResult s slot d vm vs2 f19 f11 x := by
  have hold := groupElem_mod_width s.arch f11 k x
  simp only [destResult, newDestElem, hd, destWidth, Arch.destElem, groupResult, Arch.elemUpdate]
  cases elementClass s.arch.vstart s.arch.vl (s.arch.maskEnabled vm x) x with
  | active =>
    rw [Option.getD_some, BitVec.toNat_ofNat]
    rcases Nat.le_total (s.arch.vtype.widened k) s.geom.vlen with hw | hw
    · rw [Nat.mod_mod_of_dvd _ (Nat.pow_dvd_pow 2 hw)]
    · rw [Nat.mod_mod_of_dvd _ (Nat.pow_dvd_pow 2 hw), Nat.mod_mod, Nat.mod_mod_of_dvd _ (Nat.pow_dvd_pow 2 hw)]
  | tail =>
    cases d.zeroesTail
    · exact hold.symm
    · simp
  | prestart => exact hold.symm
  | inactive => exact hold.symm

theorem maskResult_bit (hd : d.dest = .mask) :
    ((maskResult s slot d vm vs2 f19 f11 x).getLsbD 0).toNat % 2 ^ s.geom.vlen = destResult s slot d vm vs2 f19 f11 x := by
  have hold : ((maskElemRead s.arch.v f11.toNat s.arch.vtype.mlen x).getLsbD 0).toNat =
      (maskBit s.arch.v f11.toNat s.arch.vtype.mlen x).toNat % 2 ^ 1 := by
    rw [← maskBit_eq _ _ (mlen_pos _)]
    exact (Nat.mod_eq_of_lt (Bool.toNat_lt _)).symm
  simp only [destResult, newDestElem, hd, destWidth, Arch.destElem, Arch.maskElem, maskResult, Arch.elemUpdate]
  cases elementClass s.arch.vstart s.arch.vl (s.arch.maskEnabled vm x) x with
  | active =>
    have hnew : ∀ r : Nat, (decide (r % 2 = 1)).toNat = r % 2 ^ 1 := fun r => by
      rcases Nat.mod_two_eq_zero_or_one r with h | h <;> simp [h]
    simp [mlen_pos, hnew]
  | tail =>
    cases d.zeroesTail
    · exact congrArg (· % 2 ^ s.geom.vlen) hold
    · simp
  | prestart => exact congrArg (· % 2 ^ s.geom.vlen) hold
  | inactive => exact congrArg (· % 2 ^ s.geom.vlen) hold

theorem scalar0_updateScalar0 (hd : d.dest = .scalar0) :
    (slice (readV (s.arch.updateScalar0 s.params.zfinx slot d vm vs2 f19 f11) f11.toNat) 0 s.arch.vtype.sew).toNat % 2 ^ s.geom.vlen =
      destResult s slot d vm vs2 f19 f11 x := by
  have hw : 0 + s.arch.vtype.sew ≤ s.geom.vlen := by
    rw [Nat.zero_add]
    exact Nat.mul_le_mul_left 8 (Nat.pow_le_pow_right (by decide) (sewLog_le _))
  rw [Arch.updateScalar0, readV_writeV, if_pos ⟨rfl, f11.isLt⟩, slice_setSlice_same _ _ _ hw, BitVec.toNat_ofNat]
  simp only [destResult, newDestElem, hd, destWidth, Option.getD_some]

/-- An arithmetic instruction that executes with a vector register destination completes, and gives each destination element its
result (R200, R161). -/
theorem exec_destElem {c : Category} {f : BitVec 6} (h : Executes s ⟨c, f⟩ d vm vs2 f19 f11) (hd : d.dest ≠ .scalar) :
    ∃ a : Arch s.geom, exec (.arith c f vm vs2 f19 f11) s = .next { s with arch := a } ∧
      ∀ x < s.arch.vtype.vlmax, a.destElem d.dest f11 x % 2 ^ s.geom.vlen = destResult s ⟨c, f⟩ d vm vs2 f19 f11 x := by
  rw [exec_arith]
  cases hdest : d.dest with
  | vgroup k =>
    refine ⟨_, execTemplate_group h hdest, fun x hx => ?_⟩
    rw [← groupResult_toNat hdest, ← elemRead_updateGroup h hdest hx]
    exact groupElem_mod _ _ _ _
  | mask =>
    refine ⟨_, execTemplate_mask h hdest, fun x hx => ?_⟩
    rw [← maskResult_bit hdest, ← maskElemRead_updateMask hx, ← maskBit_eq _ _ (mlen_pos _)]
    rfl
  | scalar0 => exact ⟨_, execTemplate_scalar0 h hdest, fun x _ => scalar0_updateScalar0 hdest⟩
  | scalar => exact absurd hdest hd

end

/-! ### Two machines that differ in striping -/

section

variable {s t : State} {slot : Slot} {d : Descriptor} {vm : Bool} {vs2 f19 f11 : RegNum} (h : SameButStriping s t d vs2 f19 f11)

include h

theorem sew_same : t.arch.vtype.sew = s.arch.vtype.sew := by simp only [VType.sew, h.sew]

theorem vlen_same : t.geom.vlen = s.geom.vlen := by simp only [Geometry.vlen, h.vlen]

theorem vlmax_same : t.arch.vtype.vlmax = s.arch.vtype.vlmax := by
  simp only [VType.vlmax, sew_same h, vlen_same h, h.lmul]

theorem destWidth_same (o : Dest) : destWidth t.arch.vtype o = destWidth s.arch.vtype o := by
  cases o with
  | vgroup k => simp only [destWidth, VType.widened, sew_same h]
  | mask => rfl
  | scalar0 => exact sew_same h
  | scalar => rfl

/-- The conditions of R200 steps 1 to 3 speak of nothing else. -/
theorem executes_same (hs : Executes s slot d vm vs2 f19 f11) : Executes t slot d vm vs2 f19 f11 where
  desc := h.params ▸ hs.desc
  start := by rw [h.vstart, h.vl]; exact hs.start
  length := by rw [h.vl, vlmax_same h]; exact hs.length
  legal := by rw [h.lmul]; exact hs.legal
  maskable := hs.maskable

theorem maskEnabled_same {x : Nat} (hx : x < s.arch.vtype.vlmax) : t.arch.maskEnabled vm x = s.arch.maskEnabled vm x := by
  simp only [Arch.maskEnabled, h.mask x hx]

theorem elemUpdate_same (width : Nat) {x : Nat} (hx : x < s.arch.vtype.vlmax) :
    t.arch.elemUpdate t.params.zfinx slot d vm vs2 f19 f11 width x = s.arch.elemUpdate s.params.zfinx slot d vm vs2 f19 f11 width x := by
  simp only [Arch.elemUpdate, Arch.elemResult, maskEnabled_same h hx, h.vstart, h.vl, sew_same h, h.source2 x hx, h.source1 x hx,
    h.dest x hx]

theorem bodyElement_same {x : Nat} (hx : x < s.arch.vtype.vlmax) :
    t.arch.bodyElement t.params.zfinx d vm vs2 f19 x = s.arch.bodyElement s.params.zfinx d vm vs2 f19 x := by
  simp only [Arch.bodyElement, maskEnabled_same h hx, h.source2 x hx, h.source1 x hx]

theorem scalarResult_same (hl : s.arch.vl ≤ s.arch.vtype.vlmax) (hd : d.dest = .scalar0) {x : Nat} (hx : x < s.arch.vtype.vlmax) :
    t.arch.scalarResult t.params.zfinx slot d vm vs2 f19 f11 = s.arch.scalarResult s.params.zfinx slot d vm vs2 f19 f11 := by
  have hbody : ∀ j ∈ List.range (s.arch.vl - s.arch.vstart),
      t.arch.bodyElement t.params.zfinx d vm vs2 f19 (s.arch.vstart + j) =
        s.arch.bodyElement s.params.zfinx d vm vs2 f19 (s.arch.vstart + j) := fun j hj => by
    rw [List.mem_range] at hj
    exact bodyElement_same h (by omega)
  have hold : t.arch.scalar0 f11 = s.arch.scalar0 f11 := by
    have := h.dest x hx
    rwa [hd] at this
  rw [Arch.scalarResult, h.vl, h.vstart, sew_same h, hold, List.map_congr_left hbody, ← Arch.scalarResult]

theorem destResult_same (hs : Executes s slot d vm vs2 f19 f11) {x : Nat} (hx : x < s.arch.vtype.vlmax) :
    destResult t slot d vm vs2 f19 f11 x = destResult s slot d vm vs2 f19 f11 x := by
  have hnew : newDestElem t slot d vm vs2 f19 f11 x = newDestElem s slot d vm vs2 f19 f11 x := by
    rw [newDestElem, newDestElem]
    cases hdest : d.dest with
    | vgroup k =>
      have hwidth : t.arch.vtype.widened k = s.arch.vtype.widened k := destWidth_same h (.vgroup k)
      simp only [hwidth, elemUpdate_same h _ hx]
    | mask => exact elemUpdate_same h 1 hx
    | scalar0 => exact congrArg some (scalarResult_same h hs.length hdest hx)
    | scalar => rfl
  rw [destResult, hnew, h.dest x hx, destWidth_same h, vlen_same h, ← destResult]

end

/-- Settles O31: both machines complete with each destination element at its result, and the result reads only what the two share. -/
theorem resultElementsDoNotDependOnStriping : Obligations.ResultElementsDoNotDependOnStriping := by
  intro s t c f vm vs2 f19 f11 d hs hd h
  obtain ⟨a, ha, hda⟩ := exec_destElem hs hd
  obtain ⟨b, hb, hdb⟩ := exec_destElem (executes_same h hs) hd
  refine ⟨a, b, ha, hb, fun x hx => ?_⟩
  rw [hda x hx, ← destResult_same h hs hx, ← hdb x (by rwa [vlmax_same h]), vlen_same h]

end Sys2Proof.Proofs
end

section
/-! PROOFS. The mask layout (`41_mask_layout.md`): the mask elements tile the register (R142, R143), what reading and writing one does
(R144 to R146), equal ratios (R148), and the zeroed tail of a mask destination (R147). -/

namespace Sys2Proof.Proofs

open Config Machine Safety Laws

/-! ### The mask elements of a register -/

section

variable {g : Geometry}

theorem sew_le_elen (t : VType g) : t.sew ≤ g.elen :=
  Nat.mul_le_mul_left 8 (Nat.pow_le_pow_right (by decide) (Nat.lt_succ_iff.mp t.sewLog.isLt))

theorem vlmax_pos (t : VType g) : 0 < t.vlmax := by
  rw [vlmax_eq]
  exact Nat.mul_pos (lmul_pos _) (Nat.two_pow_pos _)

/-- Writing a mask element leaves every bit outside its field alone (R144, R17). -/
theorem getLsbD_maskElemWrite_outside (v : VRegs g) (n mlen i : Nat) (b : Bool) {j : Nat} (hj : j < mlen * i ∨ mlen * i + mlen ≤ j) :
    (readV (maskElemWrite v n mlen i b) n).getLsbD j = (readV v n).getLsbD j := by
  have houtside : ¬ (mlen * i ≤ j ∧ j < mlen * i + mlen ∧ j < g.vlen) := by omega
  rw [maskElemWrite, readV_writeV]
  split
  · rw [getLsbD_setSlice, if_neg houtside]
  · rfl

/-- A mask element that was written is the bit that was written to it (R145, R146). -/
theorem maskBit_maskElemWrite_same (v : VRegs g) (t : VType g) {n i : Nat} (hn : n < 32) (hi : i < t.vlmax) (b : Bool) :
    maskBit (maskElemWrite v n t.mlen i b) n t.mlen i = b := by
  rw [maskBit_eq _ _ (mlen_pos t), maskElemRead_write_same v t hn hi]
  simp [mlen_pos t]

/-- Every bit of a register is a bit of a mask element (R143). -/
theorem getLsbD_eq_maskElem (v : VRegs g) (n : Nat) {mlen : Nat} (h : 0 < mlen) (j : Nat) :
    (readV v n).getLsbD j = (maskElemRead v n mlen (j / mlen)).getLsbD (j % mlen) := by
  rw [maskElemRead, getLsbD_slice _ _ _ _ (Nat.mod_lt j h), Nat.div_add_mod]

/-- The bits of a register lie in the mask elements below VLMAX (R143). -/
theorem div_mlen_lt_vlmax (t : VType g) {j : Nat} (hj : j < g.vlen) : j / t.mlen < t.vlmax :=
  Nat.div_lt_of_lt_mul (by rwa [mlen_mul_vlmax])

end

/-- Settles O17: the product of MLEN and VLMAX is VLEN, and MLEN is SEW divided by a power of two. -/
theorem maskElementsTileTheRegister : Obligations.MaskElementsTileTheRegister := by
  intro g t
  obtain ⟨n, -, -, hpow⟩ := mlen_pow t
  refine ⟨?_, rfl, ?_, ⟨_, hpow⟩, ?_⟩
  · exact (Nat.div_eq_of_eq_mul_left (vlmax_pos t) (mlen_mul_vlmax t).symm).symm
  · rw [Nat.mul_comm, mlen_mul_vlmax]
  · exact Nat.le_trans (Nat.div_le_self _ _) (sew_le_elen t)

/-- Settles O18: the slice laws at the field of the mask element, which lies inside the register. -/
theorem maskElementWriteAndRead : Obligations.MaskElementWriteAndRead := by
  intro g t v n i b hn hi
  exact ⟨rfl, maskElemRead_write_same v t hn hi b, rfl, maskBit_maskElemWrite_same v t hn hi b,
    fun _ hj => getLsbD_maskElemWrite_outside v n t.mlen i b hj, fun _ hm => readV_maskElemWrite_outside v t.mlen n i b hm⟩

/-- Settles O19: MLEN is the ratio, and the place of the predicate bit depends on nothing else. -/
theorem equalRatioSharesPredicateBits : Obligations.EqualRatioSharesPredicateBits := by
  intro g t u v n i hratio
  rw [mlen_eq_of_equal_ratio hratio]
  exact ⟨rfl, rfl⟩

/-! ### The tail of a mask destination -/

/-- From `vl` up every index is a tail index, whatever its mask bit (R183, R185). -/
theorem elementClass_tail {vstart vl x : Nat} (hstart : vstart ≤ vl) (hx : vl ≤ x) (b : Bool) : elementClass vstart vl b x = .tail := by
  rw [elementClass, if_neg (by omega), if_neg (by omega)]

section

variable {s : State} {slot : Slot} {d : Descriptor} {vm : Bool} {vs2 f19 vd : RegNum}

/-- A tail mask element is zero as a whole where the tail is zeroed (R147, R186). -/
theorem maskResult_tail (hz : d.zeroesTail = true) {x : Nat} (hstart : s.arch.vstart ≤ s.arch.vl) (hx : s.arch.vl ≤ x) :
    maskResult s slot d vm vs2 f19 vd x = 0 := by
  rw [maskResult, elementClass_tail hstart hx]
  exact if_pos hz

/-- A destination bit from `MLEN*vl` up is beyond the register or belongs to a tail mask element (R147). -/
theorem getLsbD_updateMask_tail (hz : d.zeroesTail = true) (hstart : s.arch.vstart ≤ s.arch.vl) {j : Nat}
    (hj : s.arch.vtype.mlen * s.arch.vl ≤ j) :
    (readV (s.arch.updateMask s.params.zfinx slot d vm vs2 f19 vd) vd.toNat).getLsbD j = false := by
  rcases Nat.lt_or_ge j s.geom.vlen with hin | hout
  · have htail : s.arch.vl ≤ j / s.arch.vtype.mlen := by rwa [Nat.le_div_iff_mul_le (mlen_pos _), Nat.mul_comm]
    rw [getLsbD_eq_maskElem _ _ (mlen_pos s.arch.vtype), maskElemRead_updateMask (div_mlen_lt_vlmax _ hin),
      maskResult_tail hz hstart htail]
    exact BitVec.getLsbD_zero
  · exact BitVec.getLsbD_of_ge _ _ hout

end

/-- Settles O30: the instruction completes with the updated mask, whose bits from `MLEN*vl` up lie in tail mask elements. -/
theorem maskBitsPastVectorLengthAreZero : Obligations.MaskBitsPastVectorLengthAreZero := by
  intro s c f vm vs2 f19 vd d hs hd hz
  rw [exec_arith, execTemplate_mask hs hd]
  exact ⟨_, rfl, fun _ hj => getLsbD_updateMask_tail hz hs.start hj, fun _ b hx => elementClass_tail hs.start hx b⟩

end Sys2Proof.Proofs
end

section
/-! PROOFS. Operands and masking (`42_operands_and_masking.md`): the operand checks of R170 and the illegal instruction exception they raise
(R163, R164, R167), and the scalar in element 0 as an operand and as a result (R161, R162). -/

namespace Sys2Proof.Proofs

open Config Machine Safety Laws

/-! ### The check of one operand (R170) -/

section

variable {vm isDest : Bool} {lmul n : Nat}

/-- A scalar in element 0 is exempt (R162, D18). -/
@[simp] theorem operandOk_scalar0 : operandOk vm lmul ⟨n, .scalar0, isDest⟩ = true := rfl

/-- Which operands the check rejects (R163, R164, R167): no scalar in element 0, and more than 8 registers, or not the lowest register of the
group, or a masked destination at `v0` with LMUL > 1. -/
theorem operandOk_eq_false_iff {o : Operand} :
    operandOk vm lmul o = false ↔ o.kind ≠ .scalar0 ∧
      (8 < o.kind.size lmul ∨ o.n % o.kind.size lmul ≠ 0 ∨ (o.isDest = true ∧ vm = false ∧ 1 < lmul ∧ o.n = 0)) := by
  obtain ⟨n, kind, isDest⟩ := o
  cases kind with
  | group k => simp [operandOk, imp_iff_not_or, or_assoc, and_assoc]
  | mask => simp [operandOk, imp_iff_not_or, or_assoc, and_assoc]
  | scalar0 => simp

/-- Unmasked or with LMUL=1, an operand that is neither too large nor misaligned passes, at `v0` too (R167). -/
theorem operandOk_of_aligned {o : Operand} (hsize : o.kind.size lmul ≤ 8) (hlowest : o.n % o.kind.size lmul = 0)
    (hdest : vm = true ∨ lmul = 1) : operandOk vm lmul o = true := by
  by_contra hbad
  obtain ⟨-, hlarge | hmisaligned | ⟨-, hmasked, hlmul, -⟩⟩ := operandOk_eq_false_iff.mp (Bool.eq_false_iff.mpr hbad)
  · omega
  · exact hmisaligned hlowest
  · rcases hdest with rfl | rfl
    · cases hmasked
    · omega

/-- The number of registers of an operand that the check looks at, by its kind (R164, R140). -/
theorem size_eq_iff {kind : OperandKind} {G : Nat} :
    (kind ≠ .scalar0 ∧ kind.size lmul = G) ↔ (∃ k, kind = .group k ∧ G = 2 ^ k * lmul) ∨ (kind = .mask ∧ G = 1) := by
  cases kind with
  | group k => simp [OperandKind.size, eq_comm]
  | mask => simp [OperandKind.size, eq_comm]
  | scalar0 => simp

end

/-! ### The illegal instruction exception (R170, R230) -/

section

variable {s : State} {c : Category} {f : BitVec 6} {vm : Bool} {vs2 f19 f11 : RegNum} {d : Descriptor}
  (hdesc : descFor s.params.desc ⟨c, f⟩ = some d) (hstart : s.arch.vstart ≤ s.arch.vl) (hlength : s.arch.vl ≤ s.arch.vtype.vlmax)

include hdesc hstart hlength

/-- With a descriptor and a consistent element range, the operand checks alone raise the exception (R200 steps 1 and 2). -/
theorem exec_arith_illegal_iff :
    exec (.arith c f vm vs2 f19 f11) s =
        .fault (.illegalInstruction (encode (.arith c f vm vs2 f19 f11)) s.arch.pc.toNat s.params.causeIllegalInstruction) ↔
      ∃ o ∈ vectorOperands d vs2 f19 f11, operandOk vm s.arch.vtype.lmul.toNat o = false := by
  have hrange : ¬ (s.arch.vl < s.arch.vstart ∨ s.arch.vtype.vlmax < s.arch.vl) := by omega
  have hchecks : checkOperands vm s.arch.vtype.lmul.toNat (vectorOperands d vs2 f19 f11) = false ↔
      ∃ o ∈ vectorOperands d vs2 f19 f11, operandOk vm s.arch.vtype.lmul.toNat o = false := by
    simp [checkOperands]
  rw [← hchecks, exec_arith]
  simp only [execTemplate, hdesc, if_neg hrange]
  split
  · next hfails => exact ⟨fun _ => hfails, fun _ => rfl⟩
  · next hpass =>
    refine ⟨fun h => ?_, fun hfails => absurd hfails hpass⟩
    split at h
    · cases h
    · split at h <;> cases h

/-- One rejected operand raises the exception. -/
theorem exec_arith_illegal {o : Operand} (hmem : o ∈ vectorOperands d vs2 f19 f11) (hkind : o.kind ≠ .scalar0)
    (hbad : 8 < o.kind.size s.arch.vtype.lmul.toNat ∨ o.n % o.kind.size s.arch.vtype.lmul.toNat ≠ 0 ∨
      (o.isDest = true ∧ vm = false ∧ 1 < s.arch.vtype.lmul.toNat ∧ o.n = 0)) :
    exec (.arith c f vm vs2 f19 f11) s =
      .fault (.illegalInstruction (encode (.arith c f vm vs2 f19 f11)) s.arch.pc.toNat s.params.causeIllegalInstruction) :=
  (exec_arith_illegal_iff hdesc hstart hlength).mpr ⟨o, hmem, operandOk_eq_false_iff.mpr ⟨hkind, hbad⟩⟩

end

/-- The operands of an instruction: the destination in bits 11:7, the sources in bits 24:20 and 19:15 (R170, R200). -/
theorem mem_vectorOperands_iff {d : Descriptor} {vs2 f19 f11 : RegNum} {o : Operand} : o ∈ vectorOperands d vs2 f19 f11 ↔
    ((∃ k, d.dest = .vgroup k ∧ o = ⟨f11.toNat, .group k, true⟩) ∨ (d.dest = .mask ∧ o = ⟨f11.toNat, .mask, true⟩) ∨
      (d.dest = .scalar0 ∧ o = ⟨f11.toNat, .scalar0, true⟩)) ∨
    ((∃ k, d.src2 = .vgroup k ∧ o = ⟨vs2.toNat, .group k, false⟩) ∨ (d.src2 = .mask ∧ o = ⟨vs2.toNat, .mask, false⟩) ∨
      (d.src2 = .scalar0 ∧ o = ⟨vs2.toNat, .scalar0, false⟩)) ∨
    ((∃ k, d.src1 = .vgroup k ∧ o = ⟨f19.toNat, .group k, false⟩) ∨ (d.src1 = .mask ∧ o = ⟨f19.toNat, .mask, false⟩) ∨
      (d.src1 = .scalar0 ∧ o = ⟨f19.toNat, .scalar0, false⟩)) := by
  rw [vectorOperands, List.mem_append, List.mem_append, or_assoc]
  refine or_congr ?_ (or_congr ?_ ?_)
  · cases d.dest <;> simp
  · cases d.src2 <;> simp
  · cases d.src1 <;> simp

/-- Settles O37: the checks alone raise the exception, and what they reject is an operand that meets one of the three conditions. -/
theorem illegalExactlyWhenOperandChecksFail : Obligations.IllegalExactlyWhenOperandChecksFail := by
  refine ⟨fun s c f vm vs2 f19 f11 d hdesc hstart hlength => ?_, fun _ _ _ _ _ => mem_vectorOperands_iff⟩
  simp only [exec_arith_illegal_iff hdesc hstart hlength, operandOk_eq_false_iff, ← size_eq_iff, and_assoc, exists_and_left,
    exists_eq_left']

/-- Settles O35: the group is rejected for its size or for its number. -/
theorem widenedGroupTooLargeOrMisalignedIsIllegal : Obligations.WidenedGroupTooLargeOrMisalignedIsIllegal := by
  intro s c f vm vs2 f19 f11 d n k isDest hdesc hstart hlength hmem hbad
  exact exec_arith_illegal hdesc hstart hlength hmem nofun (hbad.imp_right .inl)

/-- Settles O34: an ordinary operand is a group of multiplier 1, and with LMUL=1 that is one register. -/
theorem registerNotLowestOfItsGroupIsIllegal : Obligations.RegisterNotLowestOfItsGroupIsIllegal := by
  refine ⟨fun s c f vm vs2 f19 f11 d n isDest hdesc hstart hlength hmem hn => ?_, fun vm isDest n => ?_⟩
  · exact widenedGroupTooLargeOrMisalignedIsIllegal s c f vm vs2 f19 f11 d n 0 isDest hdesc hstart hlength hmem
      (.inr (by rwa [pow_zero, Nat.one_mul]))
  · exact operandOk_of_aligned (show 1 ≤ 8 by decide) (Nat.mod_one n) (.inr rfl)

/-- Settles O36: with `vm` = 0 and LMUL > 1 the destination itself is rejected; otherwise 0 is a multiple of every group size. -/
theorem maskedDestinationOverMaskRegisterIsIllegal : Obligations.MaskedDestinationOverMaskRegisterIsIllegal := by
  refine ⟨fun s c f vs2 f19 d hdesc hstart hlength hdest hlmul => ?_, fun k hk => ?_, ?_, fun l => ⟨?_, fun k hk => ?_⟩⟩
  · have hoperand : ∃ kind, kind ≠ .scalar0 ∧ ⟨0, kind, true⟩ ∈ vectorOperands d vs2 f19 0 := by
      rcases hdest with ⟨k, hdest⟩ | hdest
      · exact ⟨.group k, nofun, mem_vectorOperands_iff.mpr (.inl (.inl ⟨k, hdest, rfl⟩))⟩
      · exact ⟨.mask, nofun, mem_vectorOperands_iff.mpr (.inl (.inr (.inl ⟨hdest, rfl⟩)))⟩
    obtain ⟨kind, hkind, hmem⟩ := hoperand
    exact exec_arith_illegal hdesc hstart hlength hmem hkind (.inr (.inr ⟨rfl, rfl, hlmul, rfl⟩))
  · have hsize : 2 ^ k * 1 ≤ 8 := (Nat.mul_one _).trans_le (Nat.pow_le_pow_right (by decide) hk)
    exact operandOk_of_aligned hsize (Nat.zero_mod _) (.inr rfl)
  · exact operandOk_of_aligned (show 1 ≤ 8 by decide) (Nat.zero_mod _) (.inr rfl)
  · exact operandOk_of_aligned (show 1 ≤ 8 by decide) (Nat.zero_mod _) (.inl rfl)
  · exact operandOk_of_aligned hk (Nat.zero_mod _) (.inl rfl)

/-! ### The scalar in element 0 (R161, R162) -/

/-- Settles O33: the check exempts the kind, and element 0 of any group lies at bit 0 of its lowest register. -/
theorem elementZeroScalarInAnyRegister : Obligations.ElementZeroScalarInAnyRegister := by
  intro g a n vm isDest l
  have hzero := elementZeroIsLowBitsOfLowestRegister g { a.vtype with lmul := l } a.v n.toNat
  exact ⟨operandOk_scalar0, (congrArg BitVec.toNat hzero).symm⟩

theorem sew_le_vlen {g : Geometry} (t : VType g) : t.sew ≤ g.vlen :=
  Nat.mul_le_mul_left 8 (Nat.pow_le_pow_right (by decide) (sewLog_le t))

section

variable {s : State} {slot : Slot} {d : Descriptor} {vm : Bool} {vs2 f19 vd : RegNum}

/-- Element 0 of `v[vd]` holds the scalar result (R161, R162). -/
theorem slice_updateScalar0 {zfinx : Bool} :
    slice (readV (s.arch.updateScalar0 zfinx slot d vm vs2 f19 vd) vd.toNat) 0 s.arch.vtype.sew =
      BitVec.ofNat _ (s.arch.scalarResult zfinx slot d vm vs2 f19 vd) := by
  rw [Arch.updateScalar0, readV_writeV, if_pos ⟨rfl, vd.isLt⟩]
  exact slice_setSlice_same _ _ _ ((Nat.zero_add _).trans_le (sew_le_vlen _))

/-- The bits above element 0 keep their value (R190). -/
theorem getLsbD_updateScalar0_above {zfinx : Bool} {j : Nat} (hj : s.arch.vtype.sew ≤ j) :
    (readV (s.arch.updateScalar0 zfinx slot d vm vs2 f19 vd) vd.toNat).getLsbD j = (readV s.arch.v vd.toNat).getLsbD j := by
  rw [getLsbD_updateScalar0, if_neg (by omega)]

/-- No other register is written. -/
theorem readV_updateScalar0_other {zfinx : Bool} {n : Nat} (hn : n ≠ vd.toNat) :
    readV (s.arch.updateScalar0 zfinx slot d vm vs2 f19 vd) n = readV s.arch.v n := by
  rw [Arch.updateScalar0, readV_writeV, if_neg fun h => hn h.1]

end

/-- Settles O24: the instruction completes with `updateScalar0`, whose value is the free one of what the body elements give. -/
theorem scalarResultIsWrittenToElementZero : Obligations.ScalarResultIsWrittenToElementZero := by
  intro s c f vm vs2 f19 vd d hs hd
  rw [exec_arith, execTemplate_scalar0 hs hd]
  exact ⟨_, rfl, slice_updateScalar0, fun _ hj => getLsbD_updateScalar0_above hj, fun _ hn => readV_updateScalar0_other hn⟩

end Sys2Proof.Proofs
end

section
/-! PROOFS. The classes of elements (`43_element_classes.md`): which indices each class has (R185), what a class means for an element of a
destination group (R180, R182, R183, R186), and the refusal of a start above the vector length (R189). -/

namespace Sys2Proof.Proofs

open Config Machine Safety Laws

/-! ### The indices of each class (R185) -/

section

variable {vstart vl x : Nat} {b : Bool}

theorem elementClass_prestart (hx : x < vstart) : elementClass vstart vl b x = .prestart := if_pos hx

theorem elementClass_body (hfrom : vstart ≤ x) (hto : x < vl) :
    elementClass vstart vl b x = if b then .active else .inactive := by
  rw [elementClass, if_neg (by omega), if_pos hto]

/-- The three ranges of an index, the middle one split by its mask bit, and the class of each. -/
theorem elementClass_cases (hstart : vstart ≤ vl) :
    (x < vstart ∧ elementClass vstart vl b x = .prestart) ∨
      ((vstart ≤ x ∧ x < vl) ∧ b = true ∧ elementClass vstart vl b x = .active) ∨
      ((vstart ≤ x ∧ x < vl) ∧ b = false ∧ elementClass vstart vl b x = .inactive) ∨
      (vl ≤ x ∧ elementClass vstart vl b x = .tail) := by
  rcases Nat.lt_or_ge x vstart with hpre | hfrom
  · exact .inl ⟨hpre, elementClass_prestart hpre⟩
  rcases Nat.lt_or_ge x vl with hto | htail
  · have hbody := elementClass_body (b := b) hfrom hto
    cases b with
    | true => exact .inr (.inl ⟨⟨hfrom, hto⟩, rfl, hbody⟩)
    | false => exact .inr (.inr (.inl ⟨⟨hfrom, hto⟩, rfl, hbody⟩))
  · exact .inr (.inr (.inr ⟨htail, elementClass_tail hstart htail b⟩))

end

/-- `mask(x)` is `unmasked || v0[x].LSB == 1` (R166, R185). -/
theorem maskEnabled_iff {g : Geometry} {a : Arch g} {vm : Bool} {x : Nat} :
    a.maskEnabled vm x = true ↔ vm = true ∨ (readV a.v 0).getLsbD (a.vtype.mlen * x) = true :=
  Bool.or_eq_true_iff

/-- Settles O21: in each of the ranges that the class distinguishes, every formula is true or false with its class. -/
theorem elementClassFormulas : Obligations.ElementClassFormulas := by
  intro g a vm x hstart hx
  simp only [← maskEnabled_iff]
  obtain ⟨hrange, hclass⟩ | ⟨hrange, hbit, hclass⟩ | ⟨hrange, hbit, hclass⟩ | ⟨hrange, hclass⟩ :=
    elementClass_cases (x := x) (b := a.maskEnabled vm x) hstart
  · have hto : x < a.vl := by omega
    rw [hclass]
    simp [ElementClass.isBody, hrange, hto]
  · rw [hclass]
    simp [ElementClass.isBody, hrange, hbit]
  · rw [hclass]
    simp [ElementClass.isBody, hrange, hbit]
  · have hfrom : a.vstart ≤ x := by omega
    rw [hclass]
    simp [ElementClass.isBody, hrange, hfrom, hx]

/-! ### What a class means for an element of a destination group -/

section

variable {s : State} {slot : Slot} {d : Descriptor} {vm : Bool} {vs2 f19 vd : RegNum} {k x : Nat}

/-- A prestart or inactive element keeps its value (R180, R182). -/
theorem groupResult_kept (hx : x < s.arch.vstart ∨ (s.arch.vstart ≤ x ∧ x < s.arch.vl ∧ s.arch.maskEnabled vm x = false)) :
    groupResult s slot d vm vs2 f19 vd k x =
      elemRead s.arch.v vd.toNat (s.arch.vtype.widened k) (s.arch.vtype.groupSize k) x := by
  rcases hx with hpre | ⟨hfrom, hto, hoff⟩
  · rw [groupResult, elementClass_prestart hpre]
  · rw [groupResult, elementClass_body hfrom hto, hoff, if_neg Bool.false_ne_true]

/-- A tail element is zero where the tail is zeroed (R183, R186). -/
theorem groupResult_tail (hz : d.zeroesTail = true) (hstart : s.arch.vstart ≤ s.arch.vl) (hx : s.arch.vl ≤ x) :
    groupResult s slot d vm vs2 f19 vd k x = 0 := by
  rw [groupResult, elementClass_tail hstart hx]
  exact if_pos hz

end

/-- Settles O28: the instruction completes with the updated group, whose prestart and inactive elements are the old ones. -/
theorem prestartAndInactiveElementsKeepTheirValue : Obligations.PrestartAndInactiveElementsKeepTheirValue := by
  intro s c f vm vs2 f19 vd d k hs hd
  rw [exec_arith, execTemplate_group hs hd]
  exact ⟨_, rfl, fun _ hx hkept => (elemRead_updateGroup hs hd hx).trans (groupResult_kept hkept)⟩

/-- Settles O29: the instruction completes with the updated group, whose elements from `vl` up are tail elements. -/
theorem tailElementsAreZeroed : Obligations.TailElementsAreZeroed := by
  intro s c f vm vs2 f19 vd d k hs hd hz
  rw [exec_arith, execTemplate_group hs hd]
  exact ⟨_, rfl, fun _ htail hx => (elemRead_updateGroup hs hd hx).trans (groupResult_tail hz hs.start htail)⟩

/-! ### A start above the vector length (R189) -/

/-- Settles O40: the template stops at step 1, before any operand check. -/
theorem startBeyondVectorLengthIsRefused : Obligations.StartBeyondVectorLengthIsRefused := by
  intro s c f vm vs2 f19 f11 d hdesc hstart
  have hrange : s.arch.vl < s.arch.vstart ∨ s.arch.vtype.vlmax < s.arch.vl := .inl hstart
  simp only [exec_arith, execTemplate, hdesc, if_pos hrange]

end Sys2Proof.Proofs
end

section
/-! PROOFS. The instructions (`44_instructions.md`): what an arithmetic instruction that executes leaves in its destination group or mask
(R200), the operands it reads, the two refusals of R200 and R213, and vector configuration (R201, R202). -/

namespace Sys2Proof.Proofs

open Config Machine Safety Laws

/-! ### The refusals of the template -/

/-- Settles O39: the template looks for the descriptor before anything else. -/
theorem slotWithoutDescriptorIsRefused : Obligations.SlotWithoutDescriptorIsRefused := by
  intro s c f vm vs2 f19 f11 hdesc
  simp only [exec_arith, execTemplate, hdesc]

/-- Settles O42: the template passes steps 1 to 3, and has no update for a scalar register. -/
theorem scalarDestinationIsRefused : Obligations.ScalarDestinationIsRefused := by
  rintro s c f vm vs2 f19 f11 d ⟨hdesc, hstart, hlength, hlegal, hmask⟩ hd
  have hrange : ¬ (s.arch.vl < s.arch.vstart ∨ s.arch.vtype.vlmax < s.arch.vl) := by omega
  have hmaskable : ¬ (vm = false ∧ d.maskable = false) := by rcases hmask with hmask | hmask <;> simp [hmask]
  simp only [exec_arith, execTemplate, hdesc, hlegal, hd, if_neg hrange, if_neg hmaskable, Bool.true_eq_false, if_false]

/-! ### The value of a destination element by its class (R200 step 5) -/

section

variable {s : State} {slot : Slot} {d : Descriptor} {vm : Bool} {vs2 f19 vd : RegNum} {k width x : Nat}

/-- A destination that takes the new value of element `x`, through `f`, and keeps the `old` one where there is none: what it holds after
the instruction, by the class of `x` (R180 to R183, R186). -/
theorem getD_elemUpdate_by_class {α : Type} (f : Nat → α) {zero new old : α} (hzero : f 0 = zero)
    (hnew : new = ((s.arch.elemUpdate s.params.zfinx slot d vm vs2 f19 vd width x).map f).getD old) :
    let cl := elementClass s.arch.vstart s.arch.vl (s.arch.maskEnabled vm x) x
    (cl = .active → new = f (s.arch.elemResult s.params.zfinx slot d vs2 f19 vd width x)) ∧
      (cl = .tail → d.zeroesTail = true → new = zero) ∧
      (cl = .prestart ∨ cl = .inactive ∨ (cl = .tail ∧ d.zeroesTail = false) → new = old) := by
  subst hzero hnew
  simp only [Arch.elemUpdate]
  refine ⟨fun hactive => ?_, fun htail hz => ?_, ?_⟩
  · rw [hactive]
    rfl
  · rw [htail, hz]
    rfl
  · rintro (hpre | hinactive | ⟨htail, hz⟩)
    · rw [hpre]
      rfl
    · rw [hinactive]
      rfl
    · rw [htail, hz]
      rfl

theorem groupResult_eq_getD_elemUpdate : groupResult s slot d vm vs2 f19 vd k x =
    ((s.arch.elemUpdate s.params.zfinx slot d vm vs2 f19 vd (s.arch.vtype.widened k) x).map
      fun r => BitVec.ofNat _ (r % 2 ^ s.geom.vlen)).getD
        (elemRead s.arch.v vd.toNat (s.arch.vtype.widened k) (s.arch.vtype.groupSize k) x) := by
  rw [groupResult, Arch.elemUpdate]
  cases elementClass s.arch.vstart s.arch.vl (s.arch.maskEnabled vm x) x with
  | active => rfl
  | tail => cases d.zeroesTail <;> simp
  | prestart => rfl
  | inactive => rfl

/-- A one-bit result is the parity of the number (R145). -/
theorem ofNat_one_eq_ofBool (r : Nat) : BitVec.ofNat 1 r = BitVec.ofBool (decide (r % 2 = 1)) := by
  apply BitVec.eq_of_toNat_eq
  rcases Nat.mod_two_eq_zero_or_one r with h | h <;> simp [h]

theorem maskResult_eq_getD_elemUpdate : maskResult s slot d vm vs2 f19 vd x =
    ((s.arch.elemUpdate s.params.zfinx slot d vm vs2 f19 vd 1 x).map fun r => (BitVec.ofNat 1 r).setWidth _).getD
      (maskElemRead s.arch.v vd.toNat s.arch.vtype.mlen x) := by
  rw [maskResult, Arch.elemUpdate]
  cases elementClass s.arch.vstart s.arch.vl (s.arch.maskEnabled vm x) x with
  | active => simp only [ofNat_one_eq_ofBool, Option.map_some, Option.getD_some]
  | tail => cases d.zeroesTail <;> simp
  | prestart => rfl
  | inactive => rfl

/-- Elements wider than a register: register `vd + x` takes what fits of element `x`, and no other register is written (N53, log 24). -/
theorem readV_updateGroup_wide (h : Executes s slot d vm vs2 f19 vd) (hd : d.dest = .vgroup k)
    (hw : s.geom.vlen < s.arch.vtype.widened k) (n : Nat) :
    readV (s.arch.updateGroup s.params.zfinx slot d vm vs2 f19 vd k) n =
      if vd.toNat ≤ n ∧ n < vd.toNat + s.arch.vtype.vlmax then
        ((s.arch.elemUpdate s.params.zfinx slot d vm vs2 f19 vd (s.arch.vtype.widened k) (n - vd.toNat)).map
          (BitVec.ofNat s.geom.vlen)).getD (readV s.arch.v n)
      else readV s.arch.v n := by
  have hwrite : ∀ upd : Nat → Option (BitVec (s.arch.vtype.widened k)),
      readV (writeElems s.arch.v vd.toNat (s.arch.vtype.widened k) (s.arch.vtype.groupSize k) upd s.arch.vtype.vlmax) n =
        if vd.toNat ≤ n ∧ n < vd.toNat + s.arch.vtype.vlmax then
          ((upd (n - vd.toNat)).map (·.setWidth s.geom.vlen)).getD (readV s.arch.v n)
        else readV s.arch.v n := by
    rw [widened_pow]
    intro upd
    exact readV_writeElems_wide (widened_gt hw) _ (dest_inside _ hd h.legal) upd _ (vlmax_le_groupSize hw) n
  have hfits : (BitVec.setWidth s.geom.vlen ∘ BitVec.ofNat (s.arch.vtype.widened k)) = BitVec.ofNat s.geom.vlen := by
    funext r
    exact BitVec.setWidth_ofNat_of_le hw.le r
  rw [Arch.updateGroup, hwrite, Option.map_map, hfits]

end

/-- Settles O22: the instruction completes with the updated group, whose elements are given by their classes. -/
theorem arithmeticCompletesOnGroups : Obligations.ArithmeticCompletesOnGroups := by
  intro s c f vm vs2 f19 vd d k hs hd
  rw [exec_arith, execTemplate_group hs hd]
  refine ⟨_, rfl, fun x hx => ?_, fun _ hn => readV_updateGroup_outside hn⟩
  obtain ⟨hactive, hzeroed, hkept⟩ := getD_elemUpdate_by_class (fun r => BitVec.ofNat _ (r % 2 ^ s.geom.vlen))
    (congrArg (BitVec.ofNat _) (Nat.zero_mod _)) ((elemRead_updateGroup hs hd hx).trans groupResult_eq_getD_elemUpdate)
  exact ⟨hactive, hzeroed, fun ht hz => hkept (.inr (.inr ⟨ht, hz⟩)), fun h => hkept (h.imp_right .inl)⟩

/-- Settles O23: likewise with the updated mask. -/
theorem arithmeticCompletesOnMasks : Obligations.ArithmeticCompletesOnMasks := by
  intro s c f vm vs2 f19 vd d hs hd
  rw [exec_arith, execTemplate_mask hs hd]
  refine ⟨_, rfl, fun x hx => ?_, fun _ hn => readV_updateMask_outside hn⟩
  obtain ⟨hactive, hzeroed, hkept⟩ := getD_elemUpdate_by_class (fun r => (BitVec.ofNat 1 r).setWidth _)
    (BitVec.setWidth_zero _ _) ((maskElemRead_updateMask hx).trans maskResult_eq_getD_elemUpdate)
  exact ⟨hactive, hzeroed, fun ht hz => hkept (.inr (.inr ⟨ht, hz⟩)), fun h => hkept (h.imp_right .inl)⟩

/-- The low VLEN bits of a group operand wider than a register are the register of its index (R118, N53). -/
theorem groupElem_wide {g : Geometry} (a : Arch g) (n : RegNum) {k x : Nat} (hw : g.vlen < a.vtype.widened k)
    (hx : x < a.vtype.vlmax) : a.groupElem n k x % 2 ^ g.vlen = (readV a.v (n.toNat + x)).toNat := by
  have hread : (elemRead a.v n.toNat (a.vtype.widened k) (a.vtype.groupSize k) x).toNat =
      ((readV a.v (n.toNat + x)).setWidth (a.vtype.widened k)).toNat := by
    rw [widened_pow, elemRead_wide (widened_gt hw) _ _ (Nat.lt_of_lt_of_le hx (vlmax_le_groupSize hw))]
  rw [groupElem_mod, hread, BitVec.toNat_setWidth_of_le hw.le, Nat.mod_eq_of_lt (BitVec.isLt _)]

/-- Settles O43: the update writes the register of each element's index, by the element's class, and no other. -/
theorem wideElementsCompleteInWholeRegisters : Obligations.WideElementsCompleteInWholeRegisters := by
  refine ⟨fun s c f vm vs2 f19 vd d k hs hd hw => ?_, fun g a n k x hw hx => groupElem_wide a n hw hx⟩
  rw [exec_arith, execTemplate_group hs hd]
  refine ⟨_, rfl, fun x hx => getD_elemUpdate_by_class (BitVec.ofNat s.geom.vlen) rfl ?_, fun n hn => ?_⟩
  · rw [readV_updateGroup_wide hs hd hw, if_pos (by omega), Nat.add_sub_cancel_left]
  · rw [readV_updateGroup_wide hs hd hw, if_neg (by omega)]

/-! ### The operands (R200 step 4) -/

/-- `simm5` as an unsigned number of SEW bits: a negative one is `2 ^ SEW` higher (R81). -/
theorem simm5Value_eq {g : Geometry} (t : VType g) (n : RegNum) :
    simm5Value t.sew n = if n.toNat < 16 then n.toNat else n.toNat + 2 ^ t.sew - 32 := by
  have hn : n.toNat < 32 := n.isLt
  have hsew : 2 ^ 5 ≤ 2 ^ t.sew := by
    have h8 : 8 ≤ t.sew := Nat.le_mul_of_pos_right 8 (Nat.two_pow_pos _)
    exact Nat.pow_le_pow_right (by decide) (by omega)
  have hsign : n.msb = decide (16 ≤ n.toNat) := BitVec.msb_eq_decide n
  rw [simm5Value, BitVec.toNat_signExtend, BitVec.toNat_setWidth, Nat.mod_eq_of_lt (by omega), hsign]
  rcases Nat.lt_or_ge n.toNat 16 with hpos | hneg
  · simp [hpos]
  · simp only [hneg, decide_true, if_true, if_neg (Nat.not_lt.mpr hneg)]
    omega

theorem readX_toNat {g : Geometry} (a : Arch g) (n : RegNum) :
    (a.readX n).toNat = if n = 0 then 0 else (a.x.getD (n.toNat - 1) 0).toNat := by
  unfold Arch.readX
  split
  · exact BitVec.toNat_zero
  · rfl

/-- A group operand is what the registers hold of it, and above that the free value of log 24 (R118, R164). -/
theorem groupElem_eq {g : Geometry} (a : Arch g) (n : RegNum) (k x : Nat) :
    a.groupElem n k x = (elemRead a.v n.toNat (a.vtype.widened k) (a.vtype.groupSize k) x).toNat +
      if a.vtype.widened k ≤ g.vlen then 0
      else 2 ^ g.vlen * (Config.absentBits a.v a.pc.toNat n.toNat (a.vtype.widened k) x % 2 ^ (a.vtype.widened k - g.vlen)) := by
  simp only [Arch.groupElem]
  split <;> rfl

/-- Settles O25: a source or destination element is read by the operation of its kind, and the free element function gets those. -/
theorem operandsAndResultOfAnElement : Obligations.OperandsAndResultOfAnElement := by
  intro g a n x k width group mask scalar integer
  have hgroup : some (a.groupElem n k x) = group := congrArg some (groupElem_eq a n k x)
  have hsimm5 (zfinx : Bool) : a.source1 zfinx .simm5 n x = _ := congrArg some (simm5Value_eq a.vtype n)
  have hinteger : some (a.readX n).toNat = integer := congrArg some (readX_toNat a n)
  refine ⟨⟨hgroup, rfl, rfl, rfl⟩, fun zfinx => ⟨hgroup, rfl, rfl, hsimm5 zfinx, hinteger, rfl⟩, ⟨hinteger, rfl⟩,
    ⟨hgroup, rfl, rfl⟩, fun zfinx slot d vs2 f19 f11 w hfn => ?_⟩
  rw [Arch.elemResult, hfn, applyElemFn]

/-! ### Vector configuration (R201, R202) -/

/-- `vsetvli` and `vsetvl` have one effect, with a setting of their own. -/
theorem exec_of_configures {s : State} {i : Instr} {rs1 rd : RegNum} {setting : Nat} (h : Configures s i rs1 rd setting) :
    exec i s = vset rs1 rd setting s := by
  obtain ⟨zimm, rfl, rfl⟩ | ⟨rs2, rfl, rfl⟩ := h
  · rfl
  · rfl

/-- Settles O49: both configure with one and the same setting. -/
theorem registerAndImmediateSettingsAgree : Obligations.RegisterAndImmediateSettingsAgree := by
  intro s zimm rs2 rs1 rd hsetting
  have hvsetvl : Configures s (.vsetvl rs2 rs1 rd) rs1 rd zimm.toNat := .inr ⟨rs2, rfl, hsetting.symm⟩
  have hvsetvli : Configures s (.vsetvli zimm rs1 rd) rs1 rd zimm.toNat := .inl ⟨zimm, rfl, rfl⟩
  rw [exec_of_configures hvsetvl, exec_of_configures hvsetvli]

section

variable (g : Geometry) (raw : VsetRaw)

/-- Fitting keeps `vl` in the domain of `VsetEffect` (R201, D21). -/
theorem fitVset_vl_le_vlmax : (fitVset g raw).vl ≤ (fitVset g raw).vtype.vlmax := Nat.min_le_right _ _

@[simp] theorem fitVset_lmul : (fitVset g raw).vtype.lmul = raw.lmul := rfl

@[simp] theorem fitVset_rdValue : (fitVset g raw).rdValue = raw.rdValue := rfl

/-- A legal SEW is taken as it is. -/
theorem fitVset_sew (h : raw.sewLog ≤ g.elenLog) : (fitVset g raw).vtype.sew = 8 * 2 ^ raw.sewLog :=
  congrArg (8 * 2 ^ ·) (Nat.min_eq_left h)

/-- A legal `vl` is taken as it is. -/
theorem fitVset_vl (h : raw.vl ≤ (fitVset g raw).vtype.vlmax) : (fitVset g raw).vl = raw.vl := Nat.min_eq_left h

end

/-- With the open `VsetEffect`, configuration completes in every state (R201). -/
theorem vset_open {s : State} (h : s.params.vsetEffect = .open_) (rs1 rd : RegNum) (setting : Nat) :
    let r := fitVset s.geom (Config.vsetRaw s rs1.toNat setting)
    vset rs1 rd setting s =
      s.finish (({ s.arch with vtype := r.vtype, vl := r.vl } : Arch s.geom).writeX rd (BitVec.ofNat _ r.rdValue)) := by
  simp only [vset, vsetEffect_open h]

/-- Settles O45: the effect is the free value fitted to its domain, and the write of `x[rd]` changes the `x` file alone. -/
theorem openConfigurationCompletes : Obligations.OpenConfigurationCompletes := by
  intro s i rs1 rd setting hopen hi raw r
  have hdone : exec i s = s.finish _ := (exec_of_configures hi).trans (vset_open hopen rs1 rd setting)
  exact ⟨⟨_, _, hdone, congrArg Arch.complete (writeX_changes_only_x _ rd _), fun j => readX_writeX _ rd _ j⟩,
    fitVset_vl_le_vlmax _ _, fitVset_lmul _ _, fitVset_rdValue _ _, fitVset_sew _ _, fitVset_vl _ _⟩

end Sys2Proof.Proofs
end

section
/-! PROOFS. Exceptions and runs (`60_exceptions.md`): what raises the illegal instruction exception (R230) and what it carries (R231, R237),
and how a run goes through its list of words (R244, R31). -/

namespace Sys2Proof.Proofs

open Config Machine Safety Laws

/-! ### What faults (R230) -/

section

variable {s : State} {e : Fault}

/-- A template that faults found a descriptor and a failed operand check, and raised the exception for its own word (R200 steps 1, 2). -/
theorem execTemplate_fault {slot : Slot} {inst : Word} {vm : Bool} {vs2 f19 f11 : RegNum}
    (h : execTemplate slot inst vm vs2 f19 f11 s = .fault e) :
    e = .illegalInstruction inst s.arch.pc.toNat s.params.causeIllegalInstruction ∧
      ∃ d, descFor s.params.desc slot = some d ∧
        checkOperands vm s.arch.vtype.lmul.toNat (vectorOperands d vs2 f19 f11) = false := by
  unfold execTemplate at h
  split at h
  · cases h
  next d hdesc =>
    simp only at h
    split at h
    · cases h
    split at h
    · next hfails => exact ⟨(Host.Outcome.fault.inj h).symm, d, hdesc, hfails⟩
    split at h
    · cases h
    · split at h <;> cases h

/-- Configuration completes or is refused (R201). -/
theorem vset_ne_fault {rs1 rd : RegNum} {setting : Nat} : vset rs1 rd setting s ≠ .fault e := by
  unfold vset
  split
  · nofun
  · nofun

end

/-- Settles O38, by the families of instructions: configuration and memory access never fault, arithmetic through its template alone. -/
theorem onlyFailedOperandChecksFault : Obligations.OnlyFailedOperandChecksFault := by
  intro i s e h
  obtain ⟨zimm, rs1, rd, rfl⟩ | ⟨rs2, rs1, rd, rfl⟩ | ⟨c, f, vm, vs2, f19, f11, rfl⟩ | hrefused := instr_cases i
  · exact absurd h vset_ne_fault
  · exact absurd h vset_ne_fault
  · rw [exec_arith] at h
    obtain ⟨he, d, hdesc, hfails⟩ := execTemplate_fault h
    exact ⟨he, c, f, vm, vs2, f19, f11, d, rfl, hdesc, hfails⟩
  · cases (hrefused s).symm.trans h

/-! ### What the exception carries (R231, R237) -/

/-- The step faults with what exec faults with. -/
theorem countExecuted_eq_fault {s : State} {o : Host.Outcome State Fault Refusal} {e : Fault} (h : s.countExecuted o = .fault e) :
    o = .fault e := by
  cases o with
  | next t => cases h
  | fault r => exact h
  | refused r => cases h

/-- Settles O52: the word of a decoded instruction is the fetched one (O2), and the unmatched configuration word is raised as fetched. -/
theorem illegalInstructionCarriesFetchedWord : Obligations.IllegalInstructionCarriesFetchedWord := by
  intro s w pc cause h
  cases hf : s.fetch with
  | none =>
    rw [step_of_end hf] at h
    cases h
  | some u =>
    cases hd : decode s.params.vectorWidths u with
    | instr i =>
      rw [step_of_instr hf hd] at h
      obtain ⟨he, -⟩ := onlyFailedOperandChecksFault i s _ (countExecuted_eq_fault h)
      obtain ⟨rfl, hpc, hcause⟩ := Fault.illegalInstruction.inj he
      obtain ⟨hword, -⟩ := decodedWordIsEncodingOfInstruction _ _ _ hd
      exact ⟨congrArg some hword.symm, hpc, hcause⟩
    | illegal =>
      rw [step_of_illegal hf hd] at h
      cases h
      exact ⟨rfl, rfl, rfl⟩
    | notInThisSpec =>
      rw [step_of_notInThisSpec hf hd] at h
      cases h

/-! ### A run (R244) -/

/-- A completed step executed a word that was left in the list. -/
theorem executed_lt_of_step {s t : State} (h : step s = .next t) : s.executed < s.program.length := by
  obtain ⟨w, -, -, hfetch, -⟩ := step_next h
  exact (List.getElem?_eq_some_iff.mp hfetch).1

/-- `n` completed steps change the registers and the place in the list alone, which moves by `n` words and not beyond the end; `pc` advances
by `4 * n` modulo `2 ^ XLEN` (R31, R244). -/
theorem stepsTo_frame {n : Nat} {s t : State} (h : StepsTo n s t) :
    ∃ a : Arch s.geom, t = { s with arch := a, executed := s.executed + n } ∧
      a.pc.toNat = (s.arch.pc.toNat + 4 * n) % 2 ^ s.geom.xlen ∧
      (s.executed ≤ s.program.length → s.executed + n ≤ s.program.length) := by
  induction n generalizing s with
  | zero =>
    obtain rfl : t = s := h
    exact ⟨t.arch, rfl, (Nat.mod_eq_of_lt t.arch.pc.isLt).symm, id⟩
  | succ n ih =>
    obtain ⟨u, hstep, hrest⟩ := h
    have hleft := executed_lt_of_step hstep
    obtain ⟨b, rfl, -, -, hb, -⟩ := step_frame hstep
    obtain ⟨a, rfl, ha, hroom⟩ := ih hrest
    refine ⟨a, ?_, ?_, fun _ => ?_⟩
    · rw [Nat.add_comm n, ← Nat.add_assoc]
    · rw [ha, hb, address_after_pc_advance]
    · rw [Nat.add_comm n, ← Nat.add_assoc]
      exact hroom hleft

/-- Settles O60, by the frame of `n` steps from the place 0 of the list. -/
theorem runExecutesItsListOnceAndEnds : Obligations.RunExecutesItsListOnceAndEnds := by
  intro s t words n h
  obtain ⟨a, ht, hpc, hroom⟩ := stepsTo_frame h
  have hlen : n ≤ words.length := (Nat.zero_add n).symm.trans_le (hroom (Nat.zero_le _))
  have hfetch : t.fetch = words[n]? := by
    subst ht
    exact congrArg (words[·]?) (Nat.zero_add n)
  have hfinal : Final t ↔ n = words.length := calc
    Final t ↔ words[n]? = none := by rw [Final, hfetch]
    _ ↔ words.length ≤ n := List.getElem?_eq_none_iff
    _ ↔ n = words.length := ⟨hlen.antisymm, fun hn => hn.ge⟩
  refine ⟨hlen, hfetch, hfinal, step_of_end, ?_⟩
  subst ht
  exact hpc

end Sys2Proof.Proofs
end

section
/-! PROOFS. The 0.7.x `VsetEffect` (`93_implementation_defined.md` G5): which settings it can represent, what `vsetvli` and `vsetvl` do with
one that it can (R201, R202), and their refusal of the others. -/

namespace Sys2Proof.Proofs

open Config Machine Safety Laws

/-! ### Configuration by the answer of `VsetEffect` (R201) -/

section

variable {s : State} {rs1 rd : RegNum} {setting : Nat}

theorem vset_of_answer {r : VsetResult s.geom} (h : vsetEffect s rs1 setting = some r) :
    vset rs1 rd setting s =
      s.finish (({ s.arch with vtype := r.vtype, vl := r.vl } : Arch s.geom).writeX rd (BitVec.ofNat _ r.rdValue)) := by
  simp only [vset, h]

theorem vset_of_no_answer (h : vsetEffect s rs1 setting = none) : vset rs1 rd setting s = .refused .settingNotRepresentable := by
  simp only [vset, h]

end

/-! ### The settings of the 0.7.x layout (G3, G5) -/

theorem lmulOfSetting_toNat (setting : Nat) : (lmulOfSetting setting).toNat = 2 ^ (setting % 4) := by
  have hlmul : setting % 4 < 4 := Nat.mod_lt _ (by decide)
  unfold lmulOfSetting
  interval_cases setting % 4 <;> rfl

/-- The check of the 0.7.x `VsetEffect` on the exponent of SEW and on the high bits says that SEW is at most ELEN and the setting has no bit
above bit 4. -/
theorem settingCheck_iff (g : Geometry) (setting : Nat) :
    (setting / 4 % 8 < g.elenLog + 1 ∧ setting / 32 = 0) ↔ (8 * 2 ^ (setting / 4 % 8) ≤ g.elen ∧ setting < 32) := by
  have hsew : 8 * 2 ^ (setting / 4 % 8) ≤ g.elen ↔ setting / 4 % 8 ≤ g.elenLog :=
    (Nat.mul_le_mul_left_iff (by decide)).trans (Nat.pow_le_pow_iff_right (by decide))
  rw [hsew]
  omega

section

variable {g : Geometry} (a : Arch g) (rs1 : RegNum) {setting : Nat}

/-- What the 0.7.x `VsetEffect` answers to a setting that it can represent. -/
theorem vsetEffect07_representable (hsew : 8 * 2 ^ (setting / 4 % 8) ≤ g.elen) (hbits : setting < 32) :
    ∃ r : VsetResult g, vsetEffect07 a rs1 setting = some r ∧
      r.vtype.sew = 8 * 2 ^ (setting / 4 % 8) ∧ r.vtype.lmul.toNat = 2 ^ (setting % 4) ∧
      r.vl = min (if rs1 = 0 then 2 ^ g.xlen - 1 else (a.readX rs1).toNat) r.vtype.vlmax ∧ r.rdValue = r.vl :=
  ⟨_, dif_pos ((settingCheck_iff g setting).mpr ⟨hsew, hbits⟩), rfl, lmulOfSetting_toNat setting, rfl, rfl⟩

theorem vsetEffect07_unrepresentable (h : g.elen < 8 * 2 ^ (setting / 4 % 8) ∨ 32 ≤ setting) : vsetEffect07 a rs1 setting = none := by
  refine dif_neg fun hcheck => ?_
  obtain ⟨hsew, hbits⟩ := (settingCheck_iff g setting).mp hcheck
  omega

end

/-- Settles O46: the answer to a representable setting, then the write of `x[rd]` and the completion field by field. -/
theorem draft07ConfigurationResult : Obligations.Draft07ConfigurationResult := by
  intro s i rs1 rd setting hdraft hi hsew hbits
  obtain ⟨r, hr, hrsew, hrlmul, hrvl, hrd⟩ := vsetEffect07_representable s.arch rs1 hsew hbits
  have hdone := (exec_of_configures hi).trans (vset_of_answer ((vsetEffect_draft07 hdraft rs1 setting).trans hr))
  refine ⟨r.vtype, _, hdone, hrsew, hrlmul, ?_, ?_, fun j => ?_, ?_, ?_, complete_vstart _, ?_⟩
  · rw [complete_vtype, writeX_vtype]
  · rw [complete_vl, writeX_vl, hrvl]
  · rw [readX_complete, readX_writeX, complete_vl, writeX_vl, hrd]
    rfl
  · rw [complete_v, writeX_v]
  · rw [complete_f, writeX_f]
  · rw [complete_pc, writeX_pc]

/-- Settles O47: the 0.7.x `VsetEffect` has no answer, which is the refusal. -/
theorem draft07RefusesUnrepresentableSetting : Obligations.Draft07RefusesUnrepresentableSetting := by
  intro s i rs1 rd setting hdraft hi h
  rw [exec_of_configures hi]
  exact vset_of_no_answer ((vsetEffect_draft07 hdraft rs1 setting).trans (vsetEffect07_unrepresentable s.arch rs1 h))

end Sys2Proof.Proofs
end

section
/-! PROOFS. The descriptors that loading a program supplies (`95_test_vectors.md` section 3; log 14). -/

namespace Sys2Proof.Proofs

open Config Machine Safety Laws

/-- The plain descriptor of a category is in the domain of `Desc` for it (log 3). -/
theorem plainDescriptor_fits (c : Category) : descriptorFits c (plainDescriptor c) = true := by
  cases c <;> rfl

theorem descFor_plainDescriptor_cons (slot : Slot) (table : List (Slot × Descriptor)) :
    descFor ((slot, plainDescriptor slot.category) :: table) slot = some (plainDescriptor slot.category) :=
  if_pos ⟨rfl, plainDescriptor_fits slot.category⟩

/-- The table supplied for a word has a descriptor for the word's slot: the one it had before, or the plain one. -/
theorem descFor_supplyDescriptor {p : Params} {w : Word} {i : Instr} {slot : Slot} (hw : decode p.vectorWidths w = .instr i)
    (hslot : i.slot = some slot) : ∃ d, descFor (supplyDescriptor p w) slot = some d := by
  simp only [supplyDescriptor, hw, hslot]
  cases h : descFor p.desc slot with
  | none => exact ⟨_, descFor_plainDescriptor_cons slot p.desc⟩
  | some d => exact ⟨d, h⟩

theorem withFetchWord_word (s : State) (w : Word) : s.withFetchWord 32 w.toNat = s.loadProgram [w] := by
  rw [State.withFetchWord, Nat.mod_eq_of_lt w.isLt, BitVec.ofNat_toNat, BitVec.setWidth_eq]

theorem slot_arith (c : Category) (f : BitVec 6) (vm : Bool) (vs2 f19 f11 : RegNum) :
    (Instr.arith c f vm vs2 f19 f11).slot = some ⟨c, f⟩ := by
  cases c <;> rfl

/-- Settles O58: the one word of the program decodes to its instruction, for whose slot the table is supplied. -/
theorem loadedWordHasDescriptor : Obligations.LoadedWordHasDescriptor := by
  intro s c f vm vs2 f19 f11
  have hword : decode s.params.vectorWidths (encode (.arith c f vm vs2 f19 f11)) = .instr (.arith c f vm vs2 f19 f11) := by
    rw [encode_arith, decode_encodeArith]
  rw [withFetchWord_word]
  exact descFor_supplyDescriptor hword (slot_arith c f vm vs2 f19 f11)

end Sys2Proof.Proofs
end
